-- ==== Sys2Proof/Word.lean ====
section
/-!
DEFINITION. The data the block moves: bytes, 16-bit and 32-bit values (R9), the four bytes of a register pair
(R11 `raw`), and the eight lanes of a Reading (R17).
-/

namespace Sys2Proof

/-- An 8-bit field or buffer byte (R5 `BYTE_BITS`). -/
abbrev Byte := BitVec 8

/-- A 16-bit field: start address, quantity, CRC (R9). -/
abbrev Half := BitVec 16

/-- A 32-bit float32 pattern, carried as bits (R9, R112). -/
abbrev Word := BitVec 32

/-- Four bytes in wire order, `b0` first: `raw`, `lane_raw[k]` and `shuf` (R11, R30). -/
structure Quad where
  b0 : Byte
  b1 : Byte
  b2 : Byte
  b3 : Byte
  deriving DecidableEq, Repr

/-- Eight like things, one for each lane of a Reading, in lane order 0 to 7 (R17). -/
structure Lanes (α : Type) where
  voltage       : α
  current       : α
  activePower   : α
  reactivePower : α
  apparentPower : α
  powerFactor   : α
  frequency     : α
  energy        : α
  deriving DecidableEq, Repr

end Sys2Proof
end

