-- ==== Sys2Proof/Machine/Bits.lean ====
section
/-!
DEFINITION. The constants of R5, and how multi-byte fields are taken apart and assembled (R8, R35, R54).
-/

namespace Sys2Proof.Machine

/-- R5: the function code of every request, "read holding registers". -/
def fcRead : Byte := 0x03#8

/-- R5: the length of every request. -/
def reqLen : Nat := 8

/-- R5: the least length PARSE looks at. -/
def respMin : Nat := 5

/-- R5: the bytes before the payload of a normal response. -/
def hdrLen : Nat := 3

/-- R5: the bytes of CRC that end every frame. -/
def crcLen : Nat := 2

/-- R5, R187: the largest quantity of the protocol, the caller's duty; the block does not enforce it. -/
def qtyLimit : Nat := 125

/-- R8 `hi8(v)` = `v[15:8]`. -/
def hi8 (v : Half) : Byte := v.extractLsb' 8 8

/-- R8 `lo8(v)` = `v[7:0]`. -/
def lo8 (v : Half) : Byte := v.extractLsb' 0 8

/-- R8 `be16(b0, b1)`: the first byte is the high byte. -/
def be16 (b0 b1 : Byte) : Half := b0 ++ b1

/-- R8 `le16(b0, b1)`: the first byte is the low byte. -/
def le16 (b0 b1 : Byte) : Half := b1 ++ b0

/-- R110 stage 2: four bytes read as little-endian, byte 0 least significant. -/
def littleEndian32 (q : Quad) : Word := q.b3 ++ q.b2 ++ q.b1 ++ q.b0

end Sys2Proof.Machine
end

