-- ==== Sys2Proof/Machine/Crc.lean ====
section
/-!
DEFINITION. The Modbus CRC as a function (R70 to R77): the bit step, the byte step, and the checksum of a message.
-/

namespace Sys2Proof.Machine

/-- R5, R71: "initial value 0xFFFF". -/
def crcInitValue : Half := 0xFFFF#16

/-- R5, R73: the constant XORed in when the bit shifted out was 1. -/
def crcPoly : Half := 0xA001#16

/-- R73: one logical shift right by one, and the XOR when bit 0, sampled before the shift, was 1. -/
def crcBitStep (acc : Half) : Half :=
  if acc.getLsbD 0 then (acc >>> 1) ^^^ crcPoly else acc >>> 1

/-- `n` bit steps. -/
def crcBits : Nat → Half → Half
  | 0, acc => acc
  | n + 1, acc => crcBits n (crcBitStep acc)

/-- R72: the byte, zero-extended, is XORed in whole, then exactly eight bit steps. -/
def crcByteStep (acc : Half) (b : Byte) : Half :=
  crcBits 8 (acc ^^^ b.setWidth 16)

/-- The bytes of a message, in order, from a given accumulator. -/
def crcFrom : Half → List Byte → Half
  | acc, [] => acc
  | acc, b :: m => crcFrom (crcByteStep acc b) m

/-- R70: the checksum of a message; no final XOR, no reflection (R74). -/
def crc16 (m : List Byte) : Half := crcFrom crcInitValue m

end Sys2Proof.Machine
end

