-- ==== Sys2Proof/Syntax.lean ====
section
/-!
DEFINITION. The instructions: one constructor for each row of spec/opcode_table.json, and the codes they are issued as.
-/

namespace Sys2Proof

/-- One constructor per row of the opcode table: the operations of R58, the micro-steps of R71 to R73, and the wire
formats of R51 to R53 (a frame as an instruction, log entry 10). -/
inductive Instr where
  /-- `op` = 0: the checksum of `RX[0..rx_len)` (R70) -/
  | crc16
  /-- `op` = 1: the request encoder (R80) -/
  | build
  /-- `op` = 2: the response decoder (R90) -/
  | parse
  /-- `op` = 3: the register-pair shuffle (R110) -/
  | f32swap
  /-- `op` = 4: the NaN and infinity test (R114) -/
  | isvalid
  /-- `op` = 5: eight lanes of F32SWAP (R115) -/
  | decode
  /-- `op` = 6: reserved (R58) -/
  | reserved6
  /-- `op` = 7: reserved (R58) -/
  | reserved7
  /-- CRC.INIT (R71) -/
  | crcInit
  /-- CRC.BYTE b (R72) -/
  | crcByte (b : Byte)
  /-- CRC.BIT (R73) -/
  | crcBit
  /-- a request frame (R51); `crc` is `le16(crcLo, crcHi)` as the frame has it: BUILD computes its own -/
  | req (slave : Byte) (startAddr quantity crc : Half)
  /-- a normal response frame; `crc` is `le16(crcLo, crcHi)` as received (R52) -/
  | rsp (slave function : Byte) (data : List Byte) (crc : Half)
  /-- an exception response frame; `function` holds bit 7 (R53) -/
  | exc (slave function excCode : Byte) (crc : Half)
  deriving DecidableEq, Repr

/-- What an instruction is issued as: the 3-bit operation select (R58), a micro-step, which has no encoding, or the
bytes of one frame in wire order (R50). -/
inductive Code where
  | op (bits : BitVec 3)
  | crcInit
  | crcByte (b : Byte)
  | crcBit
  | request (bytes : List Byte)
  | response (bytes : List Byte)
  deriving DecidableEq, Repr

end Sys2Proof
end

