-- ==== Sys2Proof/WellFormed.lean ====
section
/-!
DEFINITION. Which instructions the formats admit.
-/

namespace Sys2Proof

/-- R52: bit 7 of a normal response's function code is 0 and its byteCount is one byte.
R53: bit 7 of an exception response's function code is 1. Nothing else is constrained (R57, R81), the CRC fields included (log
entry 11). -/
def Instr.wf : Instr → Bool
  | .crc16 => true
  | .build => true
  | .parse => true
  | .f32swap => true
  | .isvalid => true
  | .decode => true
  | .reserved6 => true
  | .reserved7 => true
  | .crcInit => true
  | .crcByte _ => true
  | .crcBit => true
  | .req _ _ _ _ => true
  | .rsp _ function data _ => !function.getLsbD 7 && decide (data.length ≤ 255)
  | .exc _ function _ _ => function.getLsbD 7

end Sys2Proof
end

