-- ==== Sys2Proof/Decode.lean ====
section
/-!
DEFINITION. Decoding and encoding: the operation select (R58) and the three frame formats (R50 to R53), total on any
code, refusing by name.
-/

namespace Sys2Proof

open Sys2Proof.Machine

/-- Why bytes are not one frame of the format they are issued as. -/
inductive DecodeError where
  /-- a request is not 8 bytes long (R50) -/
  | requestLength
  /-- byte 1 of a request is not 0x03 (R51) -/
  | requestFunction
  /-- a response is shorter than its three header bytes (R50) -/
  | responseHeader
  /-- a response's length is not the one its format declares (R50, R56) -/
  | responseLength
  deriving DecidableEq, Repr

/-- R58: the operation a 3-bit select names. -/
def decodeOp (bits : BitVec 3) : Instr :=
  if bits = 0#3 then .crc16
  else if bits = 1#3 then .build
  else if bits = 2#3 then .parse
  else if bits = 3#3 then .f32swap
  else if bits = 4#3 then .isvalid
  else if bits = 5#3 then .decode
  else if bits = 6#3 then .reserved6
  else .reserved7

/-- R51: the first six bytes of a request. -/
def requestBody (slave : Byte) (startAddr quantity : Half) : List Byte :=
  [slave, fcRead, hi8 startAddr, lo8 startAddr, hi8 quantity, lo8 quantity]

/-- R35, R74: the two CRC bytes as transmitted, low byte first. -/
def crcBytes (crc : Half) : List Byte := [lo8 crc, hi8 crc]

/-- R51: the eight bytes of a request, with the CRC field it carries. -/
def requestFrame (slave : Byte) (startAddr quantity crc : Half) : List Byte :=
  requestBody slave startAddr quantity ++ crcBytes crc

/-- R51, R80: the eight bytes of the request BUILD makes. -/
def requestBytes (slave : Byte) (startAddr quantity : Half) : List Byte :=
  requestFrame slave startAddr quantity (crc16 (requestBody slave startAddr quantity))

/-- R52: the bytes of a normal response, with the CRC field it carries. -/
def responseBytes (slave function : Byte) (data : List Byte) (crc : Half) : List Byte :=
  slave :: function :: BitVec.ofNat 8 data.length :: (data ++ crcBytes crc)

/-- R53: the bytes of an exception response, with the CRC field it carries. -/
def exceptionBytes (slave function excCode : Byte) (crc : Half) : List Byte :=
  slave :: function :: excCode :: crcBytes crc

/-- R51: a request frame: eight bytes and function 0x03. The CRC field is read as it is (log entry 11). -/
def decodeRequest : List Byte → Except DecodeError Instr
  | [a, f, sh, sl, qh, ql, cl, ch] =>
    if f ≠ fcRead then .error .requestFunction
    else .ok (.req a (be16 sh sl) (be16 qh ql) (le16 cl ch))
  | _ => .error .requestLength

/-- R50, R52, R53, R55, R56: a response frame; bit 7 of byte 1 selects the format, and the length is the one the format
declares. The CRC is not checked here: PARSE does that (R93, R94). -/
def decodeResponse : List Byte → Except DecodeError Instr
  | a :: f :: c :: rest =>
    if f.getLsbD 7 then
      match rest with
      | [cl, ch] => .ok (.exc a f c (le16 cl ch))
      | _ => .error .responseLength
    else
      match rest.drop c.toNat with
      | [cl, ch] => .ok (.rsp a f (rest.take c.toNat) (le16 cl ch))
      | _ => .error .responseLength
  | _ => .error .responseHeader

/-- The instruction a code stands for. -/
def decode : Code → Except DecodeError Instr
  | .op bits => .ok (decodeOp bits)
  | .crcInit => .ok .crcInit
  | .crcByte b => .ok (.crcByte b)
  | .crcBit => .ok .crcBit
  | .request bytes => decodeRequest bytes
  | .response bytes => decodeResponse bytes

/-- The code of an instruction (R51 to R53, R58). -/
def encode : Instr → Code
  | .crc16 => .op 0#3
  | .build => .op 1#3
  | .parse => .op 2#3
  | .f32swap => .op 3#3
  | .isvalid => .op 4#3
  | .decode => .op 5#3
  | .reserved6 => .op 6#3
  | .reserved7 => .op 7#3
  | .crcInit => .crcInit
  | .crcByte b => .crcByte b
  | .crcBit => .crcBit
  | .req slave startAddr quantity crc => .request (requestFrame slave startAddr quantity crc)
  | .rsp slave function data crc => .response (responseBytes slave function data crc)
  | .exc slave function excCode crc => .response (exceptionBytes slave function excCode crc)

/-- Byte `k` of a table number, byte 0 least significant. -/
def tableByte (w k : Nat) : Byte := BitVec.ofNat 8 (w / 256 ^ k)

/-- The code a row's number stands for. One byte is the operation select (its three low bits are the latch, log entry
12); the wire rows number byte 0 highest (R50, R51; DEDUCED, log entry 13), and a normal response's three header bytes
are followed by zero data bytes and a zero CRC. The micro-steps have no encoding. -/
def codeOfTable (nbits w : Nat) : Option Code :=
  if nbits ≤ 8 then some (.op (BitVec.ofNat 3 w))
  else if nbits = 24 then
    some (.response ([tableByte w 2, tableByte w 1, tableByte w 0]
      ++ List.replicate ((tableByte w 0).toNat + 2) 0#8))
  else if nbits = 40 then
    some (.response [tableByte w 4, tableByte w 3, tableByte w 2, tableByte w 1, tableByte w 0])
  else if nbits = 64 then
    some (.request [tableByte w 7, tableByte w 6, tableByte w 5, tableByte w 4,
      tableByte w 3, tableByte w 2, tableByte w 1, tableByte w 0])
  else none

/-- The instruction the decoder reads from a row's number. -/
def decodeTableWord (nbits w : Nat) : Option Instr :=
  match codeOfTable nbits w with
  | some code =>
    match decode code with
    | .ok i => some i
    | .error _ => none
  | none => none

end Sys2Proof
end

