-- ==== Sys2Proof/Config.lean ====
section
/-!
DEFINITION. The named parameters the spec leaves open (R6), with the defaults R6 states. The model carries them in
`State.params` (log entry 7); no step changes them.
-/

namespace Sys2Proof

/-- What PARSE does with input beyond the end of the frame (R6, R95, D6, conflict C2). -/
inductive TrailingPolicy where
  /-- the CRC is read at its place in the frame, later bytes are ignored (the default) -/
  | framePositioned
  /-- the CRC is taken from the last two bytes of the input -/
  | bufferEnd
  /-- an input longer than the frame has no result -/
  | refuse
  deriving DecidableEq, Repr

/-- Which of the two failure statuses an exception response with a bad CRC gets (R6 `EXC_BAD_CRC`, D7).
DESIGN CHOICE, unsafe: R6 names the default only, the other value is read from D7's "which of two failure
statuses" (log entry 8). -/
inductive ExcBadCrc where
  | crcMismatch
  | protocolException
  deriving DecidableEq, Repr

/-- The four parameters of R6. -/
structure Config where
  rxMax           : Nat
  trailingPolicy  : TrailingPolicy
  excBadCrc       : ExcBadCrc
  laneAbsentValue : Word
  deriving DecidableEq, Repr

/-- R6: the defaults. -/
def Config.default : Config where
  rxMax := 260
  trailingPolicy := .framePositioned
  excBadCrc := .crcMismatch
  laneAbsentValue := 0x00000000#32

end Sys2Proof
end

