-- ==== Sys2Proof/Machine/State.lean ====
section
/-!
DEFINITION. The state of the codec block: every latch of R11, the working registers of R12 and R13, the handshake of
R23, the parameters of R6, and the host's remaining actions. Plain data only.
-/

namespace Sys2Proof

/-- The bits of a 4-byte latch at reset (DESIGN CHOICE, unsafe, log entry 1). -/
def Quad.zero : Quad := ⟨0#8, 0#8, 0#8, 0#8⟩

/-- The same thing in every lane. -/
def Lanes.all {α : Type} (a : α) : Lanes α := ⟨a, a, a, a, a, a, a, a⟩

end Sys2Proof

namespace Sys2Proof.Machine

/-- A byte buffer (R30): (index, byte) pairs in strictly rising index order. An unlisted byte holds no value (R21);
`Memory.read` says so. -/
abbrev Memory := List Host.Cell

/-- A latch: its bits, and whether they count as a value. R21 gives most latches "no value" at reset: `held` is then
false, the bits are 0 (DESIGN CHOICE, unsafe, log entry 1), and a read of the latch stops (R14, R21, U4, log entry 2). -/
structure Latch (α : Type) where
  value : α
  held  : Bool
  deriving DecidableEq, Repr

/-- R15: the four outcomes of PARSE. -/
inductive Status where
  | ok
  | frameTooShort
  | crcMismatch
  | protocolException
  deriving DecidableEq, Repr

/-- R14: the Frame latches. They hold a Frame exactly when `frame_valid` = 1; while it is 0 they keep their bits but
hold no value (R14, R22, log entry 19). -/
structure Frame where
  slave    : Byte
  function : Byte
  data     : Memory
  dataLen  : Nat
  crc      : Half
  deriving DecidableEq, Repr

/-- The operand latches of R11, for naming one. -/
inductive OperandLatch where
  | op
  | slave
  | startAddr
  | quantity
  | rx (index : Nat)
  | rxLen
  | raw
  | wordIn
  | laneRaw (lane : Fin 8)
  | lanePresent
  deriving DecidableEq, Repr

/-- The result latches of R11, for naming one. -/
inductive ResultLatch where
  | crcOut
  | tx (index : Nat)
  | status
  | frameValid
  | frameSlave
  | frameFunction
  | frameData (index : Nat)
  | frameDataLen
  | frameCrc
  | shuf
  | wordOut
  | valid
  | reading (lane : Fin 8)
  deriving DecidableEq, Repr

/-- What the host can do to the block (R23, R148, R180), and the pseudo-operations with which it fills lanes (R61). -/
inductive HostAct where
  | setOp (v : BitVec 3)
  | setSlave (v : Byte)
  | setStartAddr (v : Half)
  | setQuantity (v : Half)
  /-- writes one byte of `RX` -/
  | setRxByte (index : Nat) (b : Byte)
  | setRxLen (n : Nat)
  /-- fills `RX` with the bytes of one exchange, from index 0, and sets `rx_len` (R31, R148) -/
  | exchange (bytes : List Byte)
  | setRaw (q : Quad)
  | setWordIn (w : Word)
  /-- presents the bytes of one lane and its present bit (R18) -/
  | setLane (lane : Fin 8) (q : Quad)
  /-- presents one lane as absent (R18) -/
  | dropLane (lane : Fin 8)
  | setLanePresent (v : BitVec 8)
  /-- LANES_ELEC of the payload in `frame.data` (R61, R116) -/
  | lanesElec
  /-- LANES_ENERGY of the payload in `frame.data` (R61, R116) -/
  | lanesEnergy
  /-- asserts `start` (R23) -/
  | start
  /-- waits for `done` (R23) -/
  | wait
  /-- reads one result latch (R188) -/
  | read (l : ResultLatch)
  /-- resets the block (R180, R181) -/
  | reset
  /-- issues one code as one atomic transaction (R7): an operation on the latched operands, a micro-step of the finer
  view, or a frame of R50 (log entry 10) -/
  | transact (c : Code)
  deriving DecidableEq, Repr

/-- The state. Names are those of R11; `crcAcc` is R13's `crc_acc`, `cursor` R12's byte cursor `i`, `params` R6's
parameters, and `inputs` the model's own list of what the host does next (log entry 5). -/
structure State where
  params      : Config
  start       : Bool
  done        : Bool
  op          : Latch (BitVec 3)
  slave       : Latch Byte
  startAddr   : Latch Half
  quantity    : Latch Half
  rx          : Memory
  rxLen       : Latch Nat
  raw         : Latch Quad
  wordIn      : Latch Word
  laneRaw     : Lanes (Latch Quad)
  lanePresent : Latch (BitVec 8)
  crcAcc      : Half
  cursor      : Nat
  crcOut      : Latch Half
  tx          : Memory
  status      : Latch Status
  frameValid  : Bool
  frame       : Frame
  shuf        : Latch Quad
  wordOut     : Latch Word
  valid       : Latch Bool
  reading     : Lanes (Latch Word)
  inputs      : List HostAct
  deriving DecidableEq, Repr

/-- A fault of the model: a read of a latch that holds no value (R21: "a model makes such a read a fault, not a zero";
D9, D16, U4, which gives it the treatment `fault` and not `any value`). Both are safe: the model stops where the spec says
that a model stops. -/
inductive Fault where
  /-- raised by an operation that reads an operand latch holding no value, which R21 forbids (R21, D9, D16); safe -/
  | operandNoValue (l : OperandLatch)
  /-- raised by a host read of a result that holds no value (R14, R21, U4); safe -/
  | resultNoValue (l : ResultLatch)
  deriving DecidableEq, Repr

/-- Why the model gives a step no meaning. -/
inductive Refusal where
  /-- an instruction without a meaning yet; no arm of `exec` answers it now; safe -/
  | notModelled (mnemonic : String)
  /-- RESERVED6 and RESERVED7: `op` 6 and 7 have no meaning (R57, R58, U5); safe -/
  | reservedOp (bits : BitVec 3)
  /-- PARSE under `TRAILING_POLICY = refuse`, on an input longer than its frame (R6, R95); safe -/
  | trailingInput
  /-- `rx_len` or an index over `RX_MAX` cannot be presented (R31, U10): raised by the host's write, and by the read
  of `rx_len`; safe -/
  | rxOverCapacity
  /-- the host changes an operand of the operation in hand between `start` and `done` (R186, U3); safe -/
  | operandsNotStable
  /-- the host begins an operation between `start` and `done` of another (R23, R186, U3); safe -/
  | secondStart
  /-- the host reads a result while `done` is 0 (R188); safe -/
  | readBeforeDone
  /-- a transaction's bytes are not one frame of the format they are issued as (R50, R51); raised by `drive`; safe -/
  | notAFrame
  deriving DecidableEq, Repr

/-- R21: a latch without a value; its bits are the named reset bits (log entry 1). -/
def Latch.empty {α : Type} (bits : α) : Latch α := ⟨bits, false⟩

/-- R21, R180: the block right after reset. `done` and `frame_valid` are 0, every other latch holds no value; the
parameters are R6's defaults, and the host has done nothing yet. `start` = 0 is a DESIGN CHOICE, unsafe (log entry 3), and
so are the bits behind the missing values, `crc_acc` and the cursor (log entry 1). -/
def State.reset : State where
  params      := Config.default
  start       := false
  done        := false
  op          := Latch.empty 0#3
  slave       := Latch.empty 0#8
  startAddr   := Latch.empty 0#16
  quantity    := Latch.empty 0#16
  rx          := []
  rxLen       := Latch.empty 0
  raw         := Latch.empty Quad.zero
  wordIn      := Latch.empty 0#32
  laneRaw     := Lanes.all (Latch.empty Quad.zero)
  lanePresent := Latch.empty 0#8
  crcAcc      := 0#16
  cursor      := 0
  crcOut      := Latch.empty 0#16
  tx          := []
  status      := Latch.empty .ok
  frameValid  := false
  frame       := ⟨0#8, 0#8, [], 0, 0#16⟩
  shuf        := Latch.empty Quad.zero
  wordOut     := Latch.empty 0#32
  valid       := Latch.empty false
  reading     := Lanes.all (Latch.empty 0#32)
  inputs      := []

end Sys2Proof.Machine
end

