-- ==== Sys2Proof/Machine/Ops.lean ====
section
/-!
DEFINITION. The shared operations: sequencing of results, byte buffers, lanes, the handshake's end (R23), the one way PARSE
reports an outcome (R8 `raise`, R164), and the host's presenting of operands.
-/

namespace Sys2Proof

/-- The content of lane `k` (R17). -/
def Lanes.get {α : Type} (l : Lanes α) (k : Fin 8) : α :=
  match k with
  | 0 => l.voltage
  | 1 => l.current
  | 2 => l.activePower
  | 3 => l.reactivePower
  | 4 => l.apparentPower
  | 5 => l.powerFactor
  | 6 => l.frequency
  | 7 => l.energy

/-- Lane `k` replaced, the others kept. -/
def Lanes.put {α : Type} (l : Lanes α) (k : Fin 8) (a : α) : Lanes α :=
  match k with
  | 0 => { l with voltage := a }
  | 1 => { l with current := a }
  | 2 => { l with activePower := a }
  | 3 => { l with reactivePower := a }
  | 4 => { l with apparentPower := a }
  | 5 => { l with powerFactor := a }
  | 6 => { l with frequency := a }
  | 7 => { l with energy := a }

/-- Eight lanes from one function of the lane number; the lanes do not interact (R115). -/
def Lanes.build {α : Type} (f : Fin 8 → α) : Lanes α :=
  ⟨f 0, f 1, f 2, f 3, f 4, f 5, f 6, f 7⟩

end Sys2Proof

namespace Sys2Proof.Machine

/-- A result of a part of a step: a value, or the reason the step stops. -/
abbrev Res (α : Type) := Host.Outcome α Fault Refusal

/-- Go on with the value, or stop. -/
def andThen {α β : Type} (r : Res α) (f : α → Res β) : Res β :=
  match r with
  | .next a => f a
  | .fault e => .fault e
  | .refused e => .refused e

/-- A latch that holds the value `v`. -/
def Latch.holding {α : Type} (v : α) : Latch α := ⟨v, true⟩

/-- The byte a buffer holds at an index; an unlisted byte holds no value (R21, log entry 17). -/
def Memory.read : Memory → Nat → Option Byte
  | [], _ => none
  | (k, b) :: m, a => if k = a then some b else Memory.read m a

/-- Write one byte, keeping the indices strictly rising. -/
def Memory.write : Memory → Nat → Byte → Memory
  | [], a, b => [(a, b)]
  | (k, c) :: m, a, b =>
    if a < k then (a, b) :: (k, c) :: m
    else if a = k then (a, b) :: m
    else (k, c) :: Memory.write m a b

/-- A buffer that holds exactly these bytes from index `a` on. -/
def Memory.bytesFrom : Nat → List Byte → Memory
  | _, [] => []
  | a, b :: bs => (a, b) :: Memory.bytesFrom (a + 1) bs

/-- A buffer that holds exactly these bytes from index 0 on (R30: index 0 is the first byte). -/
def Memory.ofBytes (bytes : List Byte) : Memory := Memory.bytesFrom 0 bytes

/-- The `n` bytes from index `a` on, as far as they hold values. -/
def Memory.range (m : Memory) : Nat → Nat → List Byte
  | _, 0 => []
  | a, n + 1 =>
    match m.read a with
    | some b => b :: Memory.range m (a + 1) n
    | none => []

/-- The canonical form: indices strictly rising. Every listed byte differs from what an unlisted one reads as, which is
no value. -/
abbrev Memory.wf (m : Memory) : Prop := m.Pairwise fun x y => x.1 < y.1

/-- R30: every listed index lies inside a buffer of `n` bytes. -/
abbrev Memory.within (m : Memory) (n : Nat) : Prop := ∀ x ∈ m, x.1 < n

/-- R14: the payload in the Frame latches, `frame.data[0..frame.data_len)`. -/
def Frame.payload (f : Frame) : List Byte := f.data.range 0 f.dataLen

/-- R23, R195: the end of an operation: `done` is asserted and the request taken. DESIGN CHOICE, unsafe: `start` goes
back to 0 then (log entry 3). -/
def State.finish (s : State) : State := { s with start := false, done := true }

/-- R13, R12: what a CRC computation over `n` bytes leaves in the working latch and the cursor. DEDUCED, unsafe: R13 calls
both unobservable (log entry 4). -/
def State.ranCrc (s : State) (acc : Half) (n : Nat) : State := { s with crcAcc := acc, cursor := n }

/-- R8 `raise`, R164, R97: the one way an outcome of PARSE is delivered: `status`, `frame_valid` = 1 exactly when a Frame
comes with it, and then the Frame latches (R22). Nothing is saved and no control is transferred. -/
def State.report (s : State) (outcome : Status) (frame : Option Frame) : State :=
  match frame with
  | some f => { s with status := Latch.holding outcome, frameValid := true, frame := f }
  | none => { s with status := Latch.holding outcome, frameValid := false }

/-- The operation select presented. -/
def State.presentOp (s : State) (bits : BitVec 3) : State := { s with op := Latch.holding bits }

/-- R31, R148: the bytes of one exchange in `RX` from index 0, and their count in `rx_len`; nothing else stays in `RX`
(DESIGN CHOICE, unsafe, log entry 18). -/
def State.presentRx (s : State) (bytes : List Byte) : State :=
  { s with rx := Memory.ofBytes bytes, rxLen := Latch.holding bytes.length }

/-- R51, R148: the operands of a request presented. -/
def State.presentRequest (s : State) (slave : Byte) (startAddr quantity : Half) : State :=
  { s with
    slave := Latch.holding slave
    startAddr := Latch.holding startAddr
    quantity := Latch.holding quantity }

/-- R18: the bytes of one lane and its present bit set, or, with no bytes, the bit cleared. DESIGN CHOICE, unsafe: the
other present bits keep what the latch's bits are (log entry 22). -/
def State.presentLane (s : State) (k : Fin 8) (q : Option Quad) : State :=
  match q with
  | some bytes =>
    { s with
      laneRaw := s.laneRaw.put k (Latch.holding bytes)
      lanePresent := Latch.holding (s.lanePresent.value ||| (1#8 <<< k.val)) }
  | none =>
    { s with lanePresent := Latch.holding (s.lanePresent.value &&& ~~~(1#8 <<< k.val)) }

/-- R180, R181: a reset. Every latch goes to its reset value, an operation in progress is abandoned; the parameters are
fixed, and the host's remaining actions are not the block's (log entry 26). -/
def State.resetBlock (s : State) : State :=
  { State.reset with params := s.params, inputs := s.inputs }

end Sys2Proof.Machine
end

