-- ==== Sys2Proof/Machine/Operands.lean ====
section
/-!
DEFINITION. How an operation reads its operands (R11, R31), which operands each operation has (R58), and slicing of lanes
(R17, R38, R61).
-/

namespace Sys2Proof.Machine

/-- Read an operand latch. R21 forbids the read of a latch that holds no value and says what a model does: "a model makes
such a read a fault, not a zero" (also D9, U4). Which of several such latches the fault names is log entry 2. -/
def Latch.operand {α : Type} (l : Latch α) (name : OperandLatch) : Res α :=
  if l.held then .next l.value else .fault (.operandNoValue name)

/-- Read `rx_len`. R31, U10: a count over `RX_MAX` cannot be presented (log entry 23). -/
def State.rxLength (s : State) : Res Nat :=
  andThen (s.rxLen.operand .rxLen) fun n =>
    if n ≤ s.params.rxMax then .next n else .refused .rxOverCapacity

/-- Read `RX[i]`; `RX` is among the latches R21 lists, and a byte of it that holds no value is a fault, not a zero. -/
def State.rxByte (s : State) (i : Nat) : Res Byte :=
  match s.rx.read i with
  | some b => .next b
  | none => .fault (.operandNoValue (.rx i))

/-- Read the `n` bytes `RX[a..a+n)` (R8 `MemRead`). -/
def State.rxBytes (s : State) : Nat → Nat → Res (List Byte)
  | _, 0 => .next []
  | a, n + 1 =>
    andThen (s.rxByte a) fun b =>
      andThen (State.rxBytes s (a + 1) n) fun bs => .next (b :: bs)

/-- Read `le16(RX[i], RX[i+1])` (R54, CRC decode). -/
def State.rxLe16 (s : State) (i : Nat) : Res Half :=
  andThen (s.rxByte i) fun lo =>
    andThen (s.rxByte (i + 1)) fun hi => .next (le16 lo hi)

/-- R58: whether operation `bits` reads an operand latch. -/
def OperandLatch.usedBy (l : OperandLatch) (bits : BitVec 3) : Bool :=
  match l with
  | .op => true
  | .slave => bits == 1#3
  | .startAddr => bits == 1#3
  | .quantity => bits == 1#3
  | .rx _ => bits == 0#3 || bits == 2#3
  | .rxLen => bits == 0#3 || bits == 2#3
  | .raw => bits == 3#3
  | .wordIn => bits == 4#3
  | .laneRaw _ => bits == 5#3
  | .lanePresent => bits == 5#3

/-- R186: whether a latch must not be changed between `start` and `done`: `op`, and the operands of the operation in hand.
DESIGN CHOICE, unsafe: with `start` asserted while `op` holds no value there is no operation in hand, and only `op` itself
must not change (log entry 27). -/
def State.inHand (s : State) (l : OperandLatch) : Bool :=
  s.start && (l == .op || s.op.held && l.usedBy s.op.value)

/-- The eight lane numbers, in order (R17). -/
def laneNumbers : List (Fin 8) := [0, 1, 2, 3, 4, 5, 6, 7]

/-- R115: the first lane that is present without bytes, which DECODE could not read. -/
def State.missingLane (s : State) (present : BitVec 8) : Option (Fin 8) :=
  laneNumbers.find? fun k => present.getLsbD k.val && !(s.laneRaw.get k).held

/-- R17, R34: the holding-register address of a lane. -/
def laneAddress : Fin 8 → Half
  | 0 => 0x2000#16
  | 1 => 0x2002#16
  | 2 => 0x2004#16
  | 3 => 0x2006#16
  | 4 => 0x2008#16
  | 5 => 0x200A#16
  | 6 => 0x200E#16
  | 7 => 0x4000#16

/-- R34: the first register of the block a lane lies in. -/
def blockStart : Fin 8 → Half
  | 0 => 0x2000#16
  | 1 => 0x2000#16
  | 2 => 0x2000#16
  | 3 => 0x2000#16
  | 4 => 0x2000#16
  | 5 => 0x2000#16
  | 6 => 0x2000#16
  | 7 => 0x4000#16

/-- R17: the byte offset of a lane in its block's payload. -/
def laneOffset : Fin 8 → Nat
  | 0 => 0
  | 1 => 4
  | 2 => 8
  | 3 => 12
  | 4 => 16
  | 5 => 20
  | 6 => 28
  | 7 => 0

/-- R61 SLICE: the four bytes of a payload at an offset, present only when all four lie inside it (R39, R116). -/
def slice (payload : List Byte) (offset : Nat) : Option Quad :=
  match payload.drop offset with
  | b0 :: b1 :: b2 :: b3 :: _ => some ⟨b0, b1, b2, b3⟩
  | _ => none

/-- R116: the payload lanes may be sliced from: that of a Frame read with status OK; otherwise none. -/
def State.acceptedPayload (s : State) : List Byte :=
  if s.frameValid && s.status.held && s.status.value == .ok then s.frame.payload else []

end Sys2Proof.Machine
end

