-- ==== Sys2Proof/Machine/Checksum.lean ====
section
/-!
DEFINITION. CRC16 and its micro-steps (40_crc16.md).
-/

namespace Sys2Proof.Machine

/-- R70: the checksum of `RX[0..rx_len)` in `crc_out`; it cannot fail. -/
def execCrc16 (s : State) : Res State :=
  andThen s.rxLength fun n =>
    andThen (s.rxBytes 0 n) fun m =>
      .next ({ s.ranCrc (crc16 m) n with crcOut := Latch.holding (crc16 m) }.finish)

/-- R71: CRC.INIT. -/
def execCrcInit (s : State) : Res State :=
  .next (s.ranCrc crcInitValue 0)

/-- R72: CRC.BYTE: XOR the byte in, eight bit steps, and the cursor moves by one. DESIGN CHOICE, unsafe: the cursor only
counts; it goes past `RX_MAX`, where R12 bounds it, without a stop (D5 lets a message be unbounded; log entry 14). -/
def execCrcByte (b : Byte) (s : State) : Res State :=
  .next (s.ranCrc (crcByteStep s.crcAcc b) (s.cursor + 1))

/-- R73: CRC.BIT. -/
def execCrcBit (s : State) : Res State :=
  .next (s.ranCrc (crcBitStep s.crcAcc) s.cursor)

end Sys2Proof.Machine
end

