-- ==== Sys2Proof/Machine/Flags.lean ====
section
/-!
DEFINITION. The status numbers and the one-bit results (R15, R16, R114), and which results hold a value (R14, R21, R188).
-/

namespace Sys2Proof.Machine

/-- R15: the 2-bit number of a status. -/
def Status.code : Status → BitVec 2
  | .ok => 0#2
  | .frameTooShort => 1#2
  | .crcMismatch => 2#2
  | .protocolException => 3#2

/-- R14: the statuses a Frame comes with. -/
def Status.givesFrame : Status → Bool
  | .ok => true
  | .frameTooShort => false
  | .crcMismatch => false
  | .protocolException => true

/-- R6 `EXC_BAD_CRC`: the status of an exception response with a bad CRC (log entry 8). -/
def badExceptionStatus : ExcBadCrc → Status
  | .crcMismatch => .crcMismatch
  | .protocolException => .protocolException

/-- R114: 1 exactly when the exponent field `w[30:23]` is not 0xFF (layout of R113). -/
def isValidPattern (w : Word) : Bool := w.extractLsb' 23 8 != 0xFF#8

/-- R16: the exception flag, `frame.function[7]`; it holds a value when `frame_valid` = 1. -/
def State.exceptionFlag (s : State) : Bool := s.frame.function.getLsbD 7

/-- R14, R21: whether a result latch holds a value; `frame_valid` always does, from reset on. -/
def State.holdsResult (s : State) : ResultLatch → Bool
  | .crcOut => s.crcOut.held
  | .tx i => (s.tx.read i).isSome
  | .status => s.status.held
  | .frameValid => true
  | .frameSlave => s.frameValid
  | .frameFunction => s.frameValid
  | .frameData i => s.frameValid && decide (i < s.frame.dataLen) && (s.frame.data.read i).isSome
  | .frameDataLen => s.frameValid
  | .frameCrc => s.frameValid
  | .shuf => s.shuf.held
  | .wordOut => s.wordOut.held
  | .valid => s.valid.held
  | .reading k => (s.reading.get k).held

end Sys2Proof.Machine
end

