-- ==== Sys2Proof/Machine/Decoder.lean ====
section
/-!
DEFINITION. PARSE and the response frames (42_frame_decoder.md, R52, R53).
-/

namespace Sys2Proof.Machine

/-- R95: where the received CRC is read, `k` being its place in the frame and `n` the length of the input. -/
def crcPosition (policy : TrailingPolicy) (n k : Nat) : Nat :=
  match policy with
  | .framePositioned => k
  | .bufferEnd => n - 2
  | .refuse => k

/-- What the two branches of PARSE share, once the frame is known to cover `k` bytes before its CRC: the received CRC, the
local CRC over `RX[0..k)`, and the outcome `good` with the Frame, or `bad` (R93, R94, R95, R98). The payload is
`RX[payloadAt..k)`. A Frame comes with the outcomes of R14. DEDUCED, safe: `TRAILING_POLICY = refuse` stops before the CRC
is looked at (log entry 9). -/
def State.checkFrame (s : State) (n k payloadAt : Nat) (slave function : Byte) (good bad : Status) : Res State :=
  if s.params.trailingPolicy = .refuse ∧ k + crcLen < n then .refused .trailingInput
  else
    andThen (s.rxLe16 (crcPosition s.params.trailingPolicy n k)) fun received =>
      andThen (s.rxBytes 0 k) fun covered =>
        let outcome := if crc16 covered = received then good else bad
        let payload := covered.drop payloadAt
        let frame : Frame := ⟨slave, function, Memory.ofBytes payload, payload.length, received⟩
        .next (((s.ranCrc (crc16 covered) k).report outcome
          (if outcome.givesFrame then some frame else none)).finish)

/-- R90: the whole operation, in the order of R102: length, function-code bit, then the branch of R93 or R94. -/
def State.runParse (s : State) : Res State :=
  andThen s.rxLength fun n =>
    if n < respMin then .next ((s.report .frameTooShort none).finish)
    else
      andThen (s.rxByte 0) fun slave =>
        andThen (s.rxByte 1) fun function =>
          if function.getLsbD 7 then
            s.checkFrame n 3 2 slave function .protocolException
              (badExceptionStatus s.params.excBadCrc)
          else
            andThen (s.rxByte 2) fun byteCount =>
              if n < hdrLen + byteCount.toNat + crcLen then .next ((s.report .frameTooShort none).finish)
              else s.checkFrame n (hdrLen + byteCount.toNat) hdrLen slave function .ok .crcMismatch

/-- R90: PARSE. -/
def execParse (s : State) : Res State := s.runParse

/-- R52, semantics R94: a normal response as an instruction: its bytes are presented in `RX` and PARSE runs on them (DESIGN
CHOICE, unsafe, log entry 10). -/
def execRsp (slave function : Byte) (data : List Byte) (crc : Half) (s : State) : Res State :=
  ((s.presentOp 2#3).presentRx (responseBytes slave function data crc)).runParse

/-- R53, semantics R93: an exception response as an instruction: its bytes are presented in `RX` and PARSE runs on them
(DESIGN CHOICE, unsafe, log entry 10). -/
def execExc (slave function excCode : Byte) (crc : Half) (s : State) : Res State :=
  ((s.presentOp 2#3).presentRx (exceptionBytes slave function excCode crc)).runParse

end Sys2Proof.Machine
end

