-- ==== Sys2Proof/Machine/Encoder.lean ====
section
/-!
DEFINITION. BUILD and the request frame (41_frame_encoder.md, R51).
-/

namespace Sys2Proof.Machine

/-- R80: the request in `TX`, from the three operands; no check (R81). The CRC runs over the six bytes just written. -/
def State.runBuild (s : State) : Res State :=
  andThen (s.slave.operand .slave) fun slave =>
    andThen (s.startAddr.operand .startAddr) fun startAddr =>
      andThen (s.quantity.operand .quantity) fun quantity =>
        .next ({ s.ranCrc (crc16 (requestBody slave startAddr quantity)) 6 with
                 tx := Memory.ofBytes (requestBytes slave startAddr quantity) }.finish)

/-- R80: BUILD. -/
def execBuild (s : State) : Res State := s.runBuild

/-- R51, semantics R80: the request frame as an instruction: its fields are presented as BUILD's operands and BUILD puts
the frame into `TX` with the CRC it computes; the CRC field is no operand of BUILD (DESIGN CHOICE, unsafe, log entry 10). -/
def execReq (slave : Byte) (startAddr quantity _crc : Half) (s : State) : Res State :=
  ((s.presentOp 1#3).presentRequest slave startAddr quantity).runBuild

end Sys2Proof.Machine
end

