-- ==== Sys2Proof/Machine/Reserved.lean ====
section
/-!
DEFINITION. The reserved operation selects (R57, R58, U5).
-/

namespace Sys2Proof.Machine

/-- R57, R58: `op` = 6 has no meaning and is refused. -/
def execReserved6 (_s : State) : Host.Outcome State Fault Refusal := .refused (.reservedOp 6#3)

/-- R57, R58: `op` = 7 has no meaning and is refused. -/
def execReserved7 (_s : State) : Host.Outcome State Fault Refusal := .refused (.reservedOp 7#3)

end Sys2Proof.Machine
end

