-- ==== Sys2Proof/Machine/Swapper.lean ====
section
/-!
DEFINITION. F32SWAP, ISVALID and DECODE (43_register_swapper.md).
-/

namespace Sys2Proof.Machine

/-- R110 stage 1: [reg0.lowByte, reg0.highByte, reg1.lowByte, reg1.highByte], `reg0` the low-order register, which arrives
second (conflict C1). -/
def shuffle (raw : Quad) : Quad := ⟨raw.b3, raw.b2, raw.b1, raw.b0⟩

/-- R110: the float32 pattern of a register pair, the shuffled bytes read as little-endian. -/
def swapWord (raw : Quad) : Word := littleEndian32 (shuffle raw)

/-- R110: F32SWAP. -/
def execF32swap (s : State) : Res State :=
  andThen (s.raw.operand .raw) fun raw =>
    .next ({ s with shuf := Latch.holding (shuffle raw), wordOut := Latch.holding (swapWord raw) }.finish)

/-- R114: ISVALID. -/
def execIsvalid (s : State) : Res State :=
  andThen (s.wordIn.operand .wordIn) fun w =>
    .next ({ s with valid := Latch.holding (isValidPattern w) }.finish)

/-- R115, R117: what DECODE writes to one lane. -/
def State.laneWord (s : State) (present : BitVec 8) (k : Fin 8) : Word :=
  if present.getLsbD k.val then swapWord (s.laneRaw.get k).value else s.params.laneAbsentValue

/-- R115: DECODE. All eight lanes are written; a present lane is read, and `lane_raw` is among the latches R21 lists: the
read of one that holds no value is a fault, not a zero. -/
def execDecode (s : State) : Res State :=
  andThen (s.lanePresent.operand .lanePresent) fun present =>
    match s.missingLane present with
    | some k => .fault (.operandNoValue (.laneRaw k))
    | none =>
      .next ({ s with reading := Lanes.build fun k => Latch.holding (s.laneWord present k) }.finish)

end Sys2Proof.Machine
end

