-- ==== Sys2Proof/Machine/Dispatch.lean ====
section
/-!
DEFINITION. One arm per instruction.
-/

namespace Sys2Proof.Machine

def exec (i : Instr) (s : State) : Host.Outcome State Fault Refusal :=
  match i with
  | .crc16 => Sys2Proof.Machine.execCrc16 s
  | .build => Sys2Proof.Machine.execBuild s
  | .parse => Sys2Proof.Machine.execParse s
  | .f32swap => Sys2Proof.Machine.execF32swap s
  | .isvalid => Sys2Proof.Machine.execIsvalid s
  | .decode => Sys2Proof.Machine.execDecode s
  | .reserved6 => Sys2Proof.Machine.execReserved6 s
  | .reserved7 => Sys2Proof.Machine.execReserved7 s
  | .crcInit => Sys2Proof.Machine.execCrcInit s
  | .crcByte b => Sys2Proof.Machine.execCrcByte b s
  | .crcBit => Sys2Proof.Machine.execCrcBit s
  | .req slave startAddr quantity crc => Sys2Proof.Machine.execReq slave startAddr quantity crc s
  | .rsp slave function data crc => Sys2Proof.Machine.execRsp slave function data crc s
  | .exc slave function excCode crc => Sys2Proof.Machine.execExc slave function excCode crc s

end Sys2Proof.Machine
end

