-- ==== Sys2Proof/Machine/Pseudo.lean ====
section
/-!
DEFINITION. The pseudo-operations of R61, as actions of the host and as functions; each adds no behaviour.
-/

namespace Sys2Proof.Machine

/-- The host starts operation `bits` on the latched operands and waits for `done` (R23). -/
def runOp (bits : BitVec 3) : List HostAct := [.setOp bits, .start, .wait]

/-- R61: BUILD with given operands. -/
def buildRequest (slave : Byte) (startAddr quantity : Half) : List HostAct :=
  [.setSlave slave, .setStartAddr startAddr, .setQuantity quantity] ++ runOp 1#3

/-- R61 READ_ELEC s: the electrical block, 16 registers from 0x2000. -/
def readElec (slave : Byte) : List HostAct := buildRequest slave 0x2000#16 16#16

/-- R61 READ_ENERGY s: the energy block, 2 registers from 0x4000. -/
def readEnergy (slave : Byte) : List HostAct := buildRequest slave 0x4000#16 2#16

/-- R61, R138: an exchange whose answer is parsed. -/
def parseAnswer (bytes : List Byte) : List HostAct := .exchange bytes :: runOp 2#3

/-- R61 full read: both blocks, then DECODE; the two answers are the outside world's. -/
def fullRead (slave : Byte) (elec energy : List Byte) : List HostAct :=
  readElec slave ++ parseAnswer elec ++ [.lanesElec] ++
    readEnergy slave ++ parseAnswer energy ++ [.lanesEnergy] ++ runOp 5#3

/-- R61 electrical-only read: the electrical block, then DECODE with lane 7 absent. -/
def electricalOnlyRead (slave : Byte) (elec : List Byte) : List HostAct :=
  readElec slave ++ parseAnswer elec ++ [.lanesElec, .dropLane 7] ++ runOp 5#3

/-- The lanes of the electrical block (R17, R61 LANES_ELEC). -/
def elecLanes : List (Fin 8) := [0, 1, 2, 3, 4, 5, 6]

/-- R61, R116: present each of these lanes with its slice of a payload, or as absent when the slice is. -/
def State.presentSlices (s : State) (payload : List Byte) : List (Fin 8) → State
  | [] => s
  | k :: ks => State.presentSlices (s.presentLane k (slice payload (laneOffset k))) payload ks

/-- R61 CHECK B: the CRC of all but the last two bytes compared with those two. DESIGN CHOICE, unsafe: fewer than two bytes
have no last two, R61 says nothing of them, and the answer is false (log entry 28). -/
def checkCrc (bytes : List Byte) : Bool :=
  match bytes.drop (bytes.length - 2) with
  | [cl, ch] => crc16 (bytes.take (bytes.length - 2)) == le16 cl ch
  | _ => false

/-- R83, R137: the byteCount of a normal answer to a request for `quantity` registers. -/
def expectedByteCount (quantity : Half) : Nat := 2 * quantity.toNat

/-- R83, R137: the length of a normal answer. -/
def expectedLength (quantity : Half) : Nat := 5 + 2 * quantity.toNat

end Sys2Proof.Machine
end

