-- ==== Sys2Proof/Machine/HostPort.lean ====
section
/-!
DEFINITION. The handshake and the host's actions (R23, R148, R180, R186, R188): what the step calls.
-/

namespace Sys2Proof.Machine

/-- R23, R58: the operation in hand runs, as one atomic step (R7), once `start` is asserted. -/
def State.runStarted (s : State) : Host.Outcome State Fault Refusal :=
  andThen (s.op.operand .op) fun bits => exec (decodeOp bits) s

/-- R186, U3: a write of an operand latch; refused when the latch is an operand of the operation in hand. DESIGN CHOICE,
safe: a write that puts the value there already is refused too (log entry 29). -/
def State.hostWrites (s : State) (l : OperandLatch) (written : State) : Host.Outcome State Fault Refusal :=
  if s.inHand l then .refused .operandsNotStable else .next written

/-- R188: a host read of a result latch changes nothing (R40). Of a latch that holds no value (R14, R21) it is a fault: U4
gives this read the treatment `fault`. Before `done` it is refused (DESIGN CHOICE, safe, log entry 16). -/
def State.hostReads (s : State) (l : ResultLatch) : Host.Outcome State Fault Refusal :=
  if s.holdsResult l then
    if s.done then .next s else .refused .readBeforeDone
  else .fault (.resultNoValue l)

/-- R61, R116: LANES_ELEC and LANES_ENERGY: the host presents these lanes from the payload of a Frame accepted with status
OK. It reads results for that, so not before `done` (R188; DESIGN CHOICE, safe: a refusal, log entry 16), and it writes
operands of DECODE, so not while DECODE is in hand (R186). -/
def State.hostSlices (s : State) (ks : List (Fin 8)) : Host.Outcome State Fault Refusal :=
  if s.inHand .lanePresent then .refused .operandsNotStable
  else if s.done then .next (s.presentSlices s.acceptedPayload ks) else .refused .readBeforeDone

/-- R23, R186: the host asserts `start`; asserting it again before `done` is refused. DESIGN CHOICE, unsafe: `done` goes
back to 0 (log entry 3). -/
def State.hostStarts (s : State) : Host.Outcome State Fault Refusal :=
  if s.start then .refused .secondStart else .next { s with start := true, done := false }

/-- An operation code issued as a transaction is in the `op` latch; the other codes carry all they need. -/
def State.presentCode (s : State) : Code → State
  | .op bits => s.presentOp bits
  | .crcInit => s
  | .crcByte _ => s
  | .crcBit => s
  | .request _ => s
  | .response _ => s

/-- R7: one code as one atomic transaction; not while an operation is in hand (R23). -/
def State.hostTransacts (s : State) (c : Code) : Host.Outcome State Fault Refusal :=
  if s.start then .refused .secondStart
  else
    match decode c with
    | .ok i => exec i (s.presentCode c)
    | .error _ => .refused .notAFrame

/-- One action of the host other than waiting. -/
def State.drive (s : State) (a : HostAct) : Host.Outcome State Fault Refusal :=
  match a with
  | .setOp v => s.hostWrites .op (s.presentOp v)
  | .setSlave v => s.hostWrites .slave { s with slave := Latch.holding v }
  | .setStartAddr v => s.hostWrites .startAddr { s with startAddr := Latch.holding v }
  | .setQuantity v => s.hostWrites .quantity { s with quantity := Latch.holding v }
  | .setRxByte i b =>
    if i < s.params.rxMax then s.hostWrites (.rx i) { s with rx := s.rx.write i b }
    else .refused .rxOverCapacity
  | .setRxLen n =>
    if n ≤ s.params.rxMax then s.hostWrites .rxLen { s with rxLen := Latch.holding n }
    else .refused .rxOverCapacity
  | .exchange bytes =>
    if bytes.length ≤ s.params.rxMax then s.hostWrites .rxLen (s.presentRx bytes)
    else .refused .rxOverCapacity
  | .setRaw q => s.hostWrites .raw { s with raw := Latch.holding q }
  | .setWordIn w => s.hostWrites .wordIn { s with wordIn := Latch.holding w }
  | .setLane k q => s.hostWrites (.laneRaw k) (s.presentLane k (some q))
  | .dropLane k => s.hostWrites .lanePresent (s.presentLane k none)
  | .setLanePresent v => s.hostWrites .lanePresent { s with lanePresent := Latch.holding v }
  | .lanesElec => s.hostSlices elecLanes
  | .lanesEnergy => s.hostSlices [7]
  | .start => s.hostStarts
  | .wait => .next s
  | .read l => s.hostReads l
  | .reset => .next s.resetBlock
  | .transact c => s.hostTransacts c

/-- What one step does: while the host waits (or has nothing more to do) the block runs the operation in hand; otherwise
the host's next action is carried out. With nothing to do the block idles (log entries 5, 21). -/
def State.advance (s : State) : Host.Outcome State Fault Refusal :=
  match s.inputs with
  | [] => if s.start then s.runStarted else .next s
  | .wait :: rest => if s.start then s.runStarted else .next { s with inputs := rest }
  | a :: rest => State.drive { s with inputs := rest } a

/-- A latch presented by the launch when it holds no value (log entry 6). -/
def Latch.orHold {α : Type} (l : Latch α) (v : α) : Latch α := if l.held then l else Latch.holding v

/-- R148: a launch presents every operand; one that holds no value is presented as zero, and as the empty message
(DESIGN CHOICE, unsafe, log entry 6). -/
def State.presentMissing (s : State) : State :=
  { s with
    slave := s.slave.orHold 0#8
    startAddr := s.startAddr.orHold 0#16
    quantity := s.quantity.orHold 0#16
    rxLen := s.rxLen.orHold 0
    raw := s.raw.orHold Quad.zero
    wordIn := s.wordIn.orHold 0#32
    laneRaw := Lanes.build fun k => (s.laneRaw.get k).orHold Quad.zero
    lanePresent := s.lanePresent.orHold 0#8 }

/-- The launch of one code, so that the very next step runs it: an operation select through the handshake of R23, any
other code as the host's next transaction. -/
def State.launch (s : State) : Code → State
  | .op bits =>
    { s.presentMissing.presentOp bits with start := true, done := false, inputs := .wait :: s.inputs }
  | c => { s with start := false, inputs := .transact c :: s.inputs }

end Sys2Proof.Machine
end

