-- ==== Sys2Proof/Machine/Step.lean ====
section
/-!
DEFINITION. One step of the machine (R7), and how the host of this row launches a table row's number.
-/

namespace Sys2Proof.Machine

/-- R7, R23: one step. -/
def step (s : State) : Host.Outcome State Fault Refusal := s.advance

/-- `s` with the instruction of a row's number launched (log entry 6). -/
def State.withFetchWord (s : State) (nbits w : Nat) : State :=
  match codeOfTable nbits w with
  | some c => s.launch c
  | none => s

end Sys2Proof.Machine
end

