-- ==== Sys2Proof/Safety.lean ====
section
/-!
DEFINITION. The terms statements use: what the operands of an operation are, when an instruction can complete, the outcome
table of PARSE as a function of the input bytes (R97), the invariant of a run, and what holds no value.
-/

namespace Sys2Proof.Machine

/-- R31: `RX[0..rx_len)` holds exactly the message `m`, and `m` can be presented. -/
abbrev State.RxHolds (s : State) (m : List Byte) : Prop :=
  s.rxLen = Latch.holding m.length ∧ m.length ≤ s.params.rxMax ∧
    ∀ i, i < m.length → s.rx.read i = m[i]?

/-- The six operations of R3 and R58. -/
def isOperation : Instr → Bool
  | .crc16 => true
  | .build => true
  | .parse => true
  | .f32swap => true
  | .isvalid => true
  | .decode => true
  | .reserved6 => false
  | .reserved7 => false
  | .crcInit => false
  | .crcByte _ => false
  | .crcBit => false
  | .req _ _ _ _ => false
  | .rsp _ _ _ _ => false
  | .exc _ _ _ _ => false

/-- The operands an instruction needs are there (R21: the host has written them), so that it completes: nothing else can stop
one but `RX_MAX` (R31), and for PARSE the policy that gives a longer input no result (R95). -/
def Ready (i : Instr) (s : State) : Prop :=
  match i with
  | .crc16 => ∃ m, s.RxHolds m
  | .build => s.slave.held = true ∧ s.startAddr.held = true ∧ s.quantity.held = true
  | .parse => s.params.trailingPolicy ≠ .refuse ∧ ∃ m, s.RxHolds m
  | .f32swap => s.raw.held = true
  | .isvalid => s.wordIn.held = true
  | .decode => s.lanePresent.held = true ∧
      ∀ k : Fin 8, s.lanePresent.value.getLsbD k.val = true → (s.laneRaw.get k).held = true
  | .reserved6 => False
  | .reserved7 => False
  | .crcInit => True
  | .crcByte _ => True
  | .crcBit => True
  | .req _ _ _ _ => True
  | .rsp _ function data _ =>
      function.getLsbD 7 = false ∧ data.length ≤ 255 ∧ 5 + data.length ≤ s.params.rxMax
  | .exc _ function _ _ => function.getLsbD 7 = true ∧ 5 ≤ s.params.rxMax

/-- Instructions one after the other, stopping at the first stop. -/
def execAll : List Instr → State → Host.Outcome State Fault Refusal
  | [], s => .next s
  | i :: is, s =>
    match exec i s with
    | .next t => execAll is t
    | .fault e => .fault e
    | .refused e => .refused e

/-- A Frame as R14 defines the record, with its payload as bytes. -/
structure FrameRecord where
  slave    : Byte
  function : Byte
  data     : List Byte
  crc      : Half
  deriving DecidableEq, Repr

/-- R97: the outcome of PARSE on an input, and the Frame that comes with it, read off the table's rows in order, with the
default parameters of R6. -/
def expectedParse (m : List Byte) : Status × Option FrameRecord :=
  match m with
  | a :: f :: c :: x :: y :: _ =>
    if f.getLsbD 7 then
      if crc16 [a, f, c] = le16 x y then (.protocolException, some ⟨a, f, [c], le16 x y⟩)
      else (.crcMismatch, none)
    else
      match m.drop (3 + c.toNat) with
      | lo :: hi :: _ =>
        if crc16 (m.take (3 + c.toNat)) = le16 lo hi then
          (.ok, some ⟨a, f, (m.take (3 + c.toNat)).drop 3, le16 lo hi⟩)
        else (.crcMismatch, none)
      | _ => (.frameTooShort, none)
  | _ => (.frameTooShort, none)

/-- R56: the length a response of at least five bytes declares: 5 in the exception format, `3 + byteCount + 2` otherwise. -/
def declaredLength (m : List Byte) : Nat :=
  match m with
  | _ :: f :: c :: _ => if f.getLsbD 7 then 5 else 5 + c.toNat
  | _ => 5

/-- What PARSE leaves when it ends with this outcome (R14, R97, R164): the status, `frame_valid`, the Frame latches when a
Frame comes with it and otherwise their old bits, and the handshake's end. -/
def Delivered (outcome : Status × Option FrameRecord) (s t : State) : Prop :=
  t.status = Latch.holding outcome.1 ∧ t.frameValid = outcome.2.isSome ∧
    (∀ f, outcome.2 = some f → t.frame.slave = f.slave ∧ t.frame.function = f.function ∧
      t.frame.payload = f.data ∧ t.frame.dataLen = f.data.length ∧ t.frame.crc = f.crc) ∧
    (outcome.2 = none → t.frame = s.frame) ∧ t.done = true ∧ t.start = false

/-- The operand latches of two states hold the same (R11, "in"). -/
def SameOperands (s t : State) : Prop :=
  s.op = t.op ∧ s.slave = t.slave ∧ s.startAddr = t.startAddr ∧ s.quantity = t.quantity ∧
    (∀ a, s.rx.read a = t.rx.read a) ∧ s.rxLen = t.rxLen ∧ s.raw = t.raw ∧ s.wordIn = t.wordIn ∧
    s.laneRaw = t.laneRaw ∧ s.lanePresent = t.lanePresent

/-- The result latches of two states hold the same (R11, "out"), byte for byte. -/
def SameResults (s t : State) : Prop :=
  s.crcOut = t.crcOut ∧ (∀ a, s.tx.read a = t.tx.read a) ∧ s.status = t.status ∧
    s.frameValid = t.frameValid ∧ s.frame = t.frame ∧ s.shuf = t.shuf ∧ s.wordOut = t.wordOut ∧
    s.valid = t.valid ∧ s.reading = t.reading

/-- The results one operation writes (R22) are the same in two states; the Frame latches count when they hold a Frame. -/
def SameResultsOf (i : Instr) (s t : State) : Prop :=
  match i with
  | .crc16 => s.crcOut = t.crcOut
  | .build => ∀ a, s.tx.read a = t.tx.read a
  | .parse => s.status = t.status ∧ s.frameValid = t.frameValid ∧
      (s.frameValid = true → s.frame = t.frame)
  | .f32swap => s.shuf = t.shuf ∧ s.wordOut = t.wordOut
  | .isvalid => s.valid = t.valid
  | .decode => s.reading = t.reading
  | .reserved6 => True
  | .reserved7 => True
  | .crcInit => True
  | .crcByte _ => True
  | .crcBit => True
  | .req _ _ _ _ => True
  | .rsp _ _ _ _ => True
  | .exc _ _ _ _ => True

/-- R21: no latch holds a value, and `done` and `frame_valid` are 0. -/
def State.NoValues (s : State) : Prop :=
  s.done = false ∧ s.frameValid = false ∧
    (s.op.held = false ∧ s.slave.held = false ∧ s.startAddr.held = false ∧ s.quantity.held = false ∧
      (∀ i, s.rx.read i = none) ∧ s.rxLen.held = false ∧ s.raw.held = false ∧ s.wordIn.held = false ∧
      (∀ k, (s.laneRaw.get k).held = false) ∧ s.lanePresent.held = false) ∧
    ∀ l, l ≠ .frameValid → s.holdsResult l = false

/-- The operand latch a host action writes (R11 "in"); an action over several latches of one operation names one. -/
def HostAct.writes : HostAct → Option OperandLatch
  | .setOp _ => some .op
  | .setSlave _ => some .slave
  | .setStartAddr _ => some .startAddr
  | .setQuantity _ => some .quantity
  | .setRxByte i _ => some (.rx i)
  | .setRxLen _ => some .rxLen
  | .exchange _ => some .rxLen
  | .setRaw _ => some .raw
  | .setWordIn _ => some .wordIn
  | .setLane k _ => some (.laneRaw k)
  | .dropLane _ => some .lanePresent
  | .setLanePresent _ => some .lanePresent
  | .lanesElec => some .lanePresent
  | .lanesEnergy => some .lanePresent
  | .start => none
  | .wait => none
  | .read _ => none
  | .reset => none
  | .transact _ => none

/-- R31, U10: the action presents nothing beyond `RX_MAX`. -/
def HostAct.fits (rxMax : Nat) : HostAct → Prop
  | .setRxByte i _ => i < rxMax
  | .setRxLen n => n ≤ rxMax
  | .exchange bytes => bytes.length ≤ rxMax
  | .setOp _ => True
  | .setSlave _ => True
  | .setStartAddr _ => True
  | .setQuantity _ => True
  | .setRaw _ => True
  | .setWordIn _ => True
  | .setLane _ _ => True
  | .dropLane _ => True
  | .setLanePresent _ => True
  | .lanesElec => True
  | .lanesEnergy => True
  | .start => True
  | .wait => True
  | .read _ => True
  | .reset => True
  | .transact _ => True

/-- R188: a host action that reads results waits for `done`. -/
def HostAct.mayRead (a : HostAct) (s : State) : Prop :=
  a = .lanesElec ∨ a = .lanesEnergy → s.done = true

/-- What LANES_ELEC and LANES_ENERGY leave of the lanes (R61, R116): each of these lanes is present exactly when the Frame
was read with status OK and all four bytes of the lane lie inside its payload, and then holds them; the other lanes keep
their bytes and present bits [22]. -/
def SlicedLanes (ks : List (Fin 8)) (s t : State) : Prop :=
  t.lanePresent.held = true ∧ ∀ k : Fin 8,
    let accepted := s.frameValid = true ∧ s.status = Latch.holding .ok ∧ laneOffset k + 4 ≤ s.frame.payload.length
    (k ∈ ks → accepted → t.lanePresent.value.getLsbD k.val = true ∧
      ∃ q : Quad, t.laneRaw.get k = Latch.holding q ∧
        [q.b0, q.b1, q.b2, q.b3] = (s.frame.payload.drop (laneOffset k)).take 4) ∧
    (k ∈ ks → ¬accepted → t.lanePresent.value.getLsbD k.val = false ∧ t.laneRaw.get k = s.laneRaw.get k) ∧
    (k ∉ ks → t.lanePresent.value.getLsbD k.val = s.lanePresent.value.getLsbD k.val ∧
      t.laneRaw.get k = s.laneRaw.get k)

/-- What an operand latch holds after a host action wrote it (R11, R18, R31); for one lane, that the other present bits are
the latch's bits is [22]. LANES_ELEC and LANES_ENERGY leave what `SlicedLanes` says, in statements of their own. -/
def HostAct.Wrote (a : HostAct) (s t : State) : Prop :=
  match a with
  | .setOp v => t.op = Latch.holding v
  | .setSlave v => t.slave = Latch.holding v
  | .setStartAddr v => t.startAddr = Latch.holding v
  | .setQuantity v => t.quantity = Latch.holding v
  | .setRxByte i b => t.rx.read i = some b ∧ ∀ j, j ≠ i → t.rx.read j = s.rx.read j
  | .setRxLen n => t.rxLen = Latch.holding n ∧ ∀ j, t.rx.read j = s.rx.read j
  | .exchange bytes => t.RxHolds bytes
  | .setRaw q => t.raw = Latch.holding q
  | .setWordIn w => t.wordIn = Latch.holding w
  | .setLane k q => t.laneRaw.get k = Latch.holding q ∧ t.lanePresent.held = true ∧
      t.lanePresent.value.getLsbD k.val = true ∧
      ∀ j, j ≠ k → t.laneRaw.get j = s.laneRaw.get j ∧
        t.lanePresent.value.getLsbD j.val = s.lanePresent.value.getLsbD j.val
  | .dropLane k => t.laneRaw = s.laneRaw ∧ t.lanePresent.held = true ∧
      t.lanePresent.value.getLsbD k.val = false ∧
      ∀ j, j ≠ k → t.lanePresent.value.getLsbD j.val = s.lanePresent.value.getLsbD j.val
  | .setLanePresent v => t.lanePresent = Latch.holding v
  | .lanesElec => True
  | .lanesEnergy => True
  | .start => True
  | .wait => True
  | .read _ => True
  | .reset => True
  | .transact _ => True

/-- One operand latch, one byte of `RX` or one lane, is the same in two states (R11, "in"). -/
def OperandLatch.Same (l : OperandLatch) (s t : State) : Prop :=
  match l with
  | .op => s.op = t.op
  | .slave => s.slave = t.slave
  | .startAddr => s.startAddr = t.startAddr
  | .quantity => s.quantity = t.quantity
  | .rx i => s.rx.read i = t.rx.read i
  | .rxLen => s.rxLen = t.rxLen
  | .raw => s.raw = t.raw
  | .wordIn => s.wordIn = t.wordIn
  | .laneRaw k => s.laneRaw.get k = t.laneRaw.get k
  | .lanePresent => s.lanePresent = t.lanePresent

/-- The operand latches a host action may change (R11, R18, R31, R61): an exchange `rx_len` and the bytes of `RX`, a
presented lane its bytes and `lane_present`. A reset and a transaction are not bounded here. -/
def HostAct.touches (a : HostAct) (l : OperandLatch) : Prop :=
  match a with
  | .setOp _ => l = .op
  | .setSlave _ => l = .slave
  | .setStartAddr _ => l = .startAddr
  | .setQuantity _ => l = .quantity
  | .setRxByte i _ => l = .rx i
  | .setRxLen _ => l = .rxLen
  | .exchange _ => l = .rxLen ∨ ∃ i, l = .rx i
  | .setRaw _ => l = .raw
  | .setWordIn _ => l = .wordIn
  | .setLane k _ => l = .lanePresent ∨ l = .laneRaw k
  | .dropLane _ => l = .lanePresent
  | .setLanePresent _ => l = .lanePresent
  | .lanesElec => l = .lanePresent ∨ ∃ k ∈ elecLanes, l = .laneRaw k
  | .lanesEnergy => l = .lanePresent ∨ l = .laneRaw 7
  | .start => False
  | .wait => False
  | .read _ => False
  | .reset => True
  | .transact _ => True

/-- What every step keeps: the buffers are canonical and inside their capacities (R30, R31), the counts are within theirs
(R11), the Frame latches hold a Frame exactly when `status` says so, with all its bytes (R14), the exception flag agrees
with `status` (R16), and `start` and `done` are never both 1 (R23). -/
def State.Inv (s : State) : Prop :=
  (s.rx.wf ∧ s.rx.within s.params.rxMax) ∧
  (s.tx.wf ∧ s.tx.within reqLen) ∧
  (s.frame.data.wf ∧ s.frame.data.within 255) ∧
  s.rxLen.value ≤ s.params.rxMax ∧
  s.frame.dataLen ≤ 255 ∧
  (s.frameValid = true → s.frame.payload.length = s.frame.dataLen) ∧
  s.frameValid = (s.status.held && s.status.value.givesFrame) ∧
  (s.frameValid = true → s.exceptionFlag = decide (s.status.value = .protocolException)) ∧
  (s.start = true → s.done = false)

end Sys2Proof.Machine
end

