-- ==== Sys2Proof/Certificates/Slice0/Obligations.lean ====
section
/-!
DEFINITION. The statements about the model, for the provers. `[n]` in a docstring is a log entry whose choice the statement
rests on.
-/

open Sys2Proof Sys2Proof.Machine

/-! ## Encoding -/

/-- R51, R52, R53, R58: decoding an encoded well-formed instruction gives it back, every field at every value. -/
def Obligations.DecodeOfEncode : Prop :=
  ∀ i : Instr, i.wf = true → decode (encode i) = .ok i

/-- R51, R52, R53, R58: a code that decodes stands for a well-formed instruction, and encodes back to itself: no bit of a
frame is dropped. -/
def Obligations.EncodeOfDecode : Prop :=
  ∀ (c : Code) (i : Instr), decode c = .ok i → i.wf = true ∧ encode i = c

/-- R51, R52, R53, R58: a few codes written out from the formats. -/
def Obligations.SampleCodesDecode : Prop :=
  decode (.op 0b011#3) = .ok .f32swap ∧
  decode (.request [0x02, 0x03, 0x20, 0x0E, 0x00, 0x02, 0xAE, 0x3B]) = .ok (.req 0x02 0x200E 2 0x3BAE) ∧
  decode (.response [0x01, 0x04, 0x02, 0x12, 0x34, 0xB4, 0x47]) = .ok (.rsp 0x01 0x04 [0x12, 0x34] 0x47B4) ∧
  decode (.response [0x01, 0x83, 0x02, 0xC0, 0xF1]) = .ok (.exc 0x01 0x83 0x02 0xF1C0)

/-- R58: the eight operation selects. -/
def Obligations.OpSelectDecodes : Prop :=
  decode (.op 0#3) = .ok .crc16 ∧ decode (.op 1#3) = .ok .build ∧ decode (.op 2#3) = .ok .parse ∧
  decode (.op 3#3) = .ok .f32swap ∧ decode (.op 4#3) = .ok .isvalid ∧ decode (.op 5#3) = .ok .decode ∧
  decode (.op 6#3) = .ok .reserved6 ∧ decode (.op 7#3) = .ok .reserved7

/-- R57, R58: `op` 6 and 7 have no meaning: the instruction is refused, and so is the step that starts it. -/
def Obligations.ReservedOpsRefused : Prop :=
  ∀ s : State, exec .reserved6 s = .refused (.reservedOp 6#3) ∧ exec .reserved7 s = .refused (.reservedOp 7#3) ∧
    (s.start = true → s.inputs = [] → s.op = Latch.holding 6#3 → step s = .refused (.reservedOp 6#3)) ∧
    (s.start = true → s.inputs = [] → s.op = Latch.holding 7#3 → step s = .refused (.reservedOp 7#3))

/-- R35, R54: how two bytes make a 16-bit field and are taken from it, in both orders. -/
def Obligations.ByteOrders : Prop :=
  (∀ v : Half, be16 (hi8 v) (lo8 v) = v ∧ le16 (lo8 v) (hi8 v) = v) ∧
  ∀ b0 b1 : Byte, hi8 (be16 b0 b1) = b0 ∧ lo8 (be16 b0 b1) = b1 ∧ lo8 (le16 b0 b1) = b0 ∧ hi8 (le16 b0 b1) = b1

/-! ## One step -/

/-- R23, R58: with `start` asserted and the host waiting, the step runs the operation `op` selects, on the state as it
is. -/
def Obligations.StartedOperationRuns : Prop :=
  ∀ (s : State) (bits : BitVec 3), s.start = true → (s.inputs = [] ∨ ∃ rest, s.inputs = .wait :: rest) →
    s.op = Latch.holding bits → step s = exec (decodeOp bits) s

/-- R7: a transaction runs the instruction its code decodes to, with the operation select, if it is one, in `op` [5], [10];
bytes that are no frame of their format are refused [11], and so is a transaction while an operation is in hand (R186, U3)
[15]. -/
def Obligations.TransactionRuns : Prop :=
  ∀ (s : State) (c : Code) (rest : List HostAct), s.inputs = .transact c :: rest →
    (s.start = false → ∀ i, decode c = .ok i →
      step s = exec i (State.presentCode { s with inputs := rest } c)) ∧
    (s.start = false → ∀ e, decode c = .error e → step s = .refused .notAFrame) ∧
    (s.start = true → step s = .refused .secondStart)

/-- R23: the handshake: `start` is taken once, `done` goes to 0 with it [3]; waiting without an operation, and having
nothing to do, change nothing but the host's list [5], [21]. -/
def Obligations.Handshake : Prop :=
  ∀ (s : State) (rest : List HostAct),
    (s.inputs = .start :: rest → s.start = false →
      step s = .next { s with start := true, done := false, inputs := rest }) ∧
    (s.inputs = .start :: rest → s.start = true → step s = .refused .secondStart) ∧
    (s.inputs = .wait :: rest → s.start = false → step s = .next { s with inputs := rest }) ∧
    (s.inputs = [] → s.start = false → step s = .next s)

/-! ## CRC16 -/

/-- R70: `op` = 0 is CRC16; it gives the CRC of the message in `RX`, by the rule's own loop; what it leaves in `crc_acc` and the cursor is [4], the
handshake's end [3]. -/
def Obligations.Crc16Result : Prop :=
  decode (.op 0#3) = .ok .crc16 ∧ ∀ (s : State) (m : List Byte), s.RxHolds m →
    let bit := fun x : Half => if x.getLsbD 0 then (x >>> 1) ^^^ 0xA001#16 else x >>> 1
    let crc := m.foldl (fun acc b => bit^[8] (acc ^^^ b.setWidth 16)) 0xFFFF#16
    exec .crc16 s = .next { s with
      crcOut := Latch.holding crc, crcAcc := crc, cursor := m.length, start := false, done := true }

/-- R71: CRC.INIT. That it leaves the handshake, and so everything else, as it is, is [14]. -/
def Obligations.CrcInitResult : Prop :=
  ∀ s : State, exec .crcInit s = .next { s with crcAcc := 0xFFFF#16, cursor := 0 }

/-- R72: CRC.BYTE: the byte goes into the low half, the high half stays; then eight CRC.BIT; then the cursor moves by one,
past `RX_MAX` too, and the handshake stays [14]. -/
def Obligations.CrcByteResult : Prop :=
  ∀ (s : State) (b : Byte), ∃ u : State,
    let x := s.crcAcc ^^^ b.setWidth 16
    lo8 x = lo8 s.crcAcc ^^^ b ∧ hi8 x = hi8 s.crcAcc ∧
    execAll (List.replicate 8 .crcBit) { s with crcAcc := x } = .next u ∧
    u = { s with crcAcc := u.crcAcc } ∧
    exec (.crcByte b) s = .next { s with crcAcc := u.crcAcc, cursor := s.cursor + 1 }

/-- R73: CRC.BIT: a zero enters at bit 15; when the bit shifted out was 1, bits 15, 13 and 0 are inverted after the
shift. That it leaves the handshake and the cursor as they are is [14]. -/
def Obligations.CrcBitResult : Prop :=
  ∀ s : State, exec .crcBit s = .next { s with
    crcAcc := if s.crcAcc.getLsbD 0 = true then (0#1 ++ s.crcAcc.extractLsb' 1 15) ^^^ 0xA001#16
      else 0#1 ++ s.crcAcc.extractLsb' 1 15 }

/-- R75: CRC.INIT and one CRC.BYTE per byte give what CRC16 gives, and a message may arrive in two parts. That the
micro-steps leave the handshake and every other latch is [14]. -/
def Obligations.SerialCrcAgrees : Prop :=
  ∀ (s : State) (p q : List Byte), s.RxHolds (p ++ q) → ∃ t u : State,
    exec .crc16 s = .next t ∧
    execAll (.crcInit :: (p.map .crcByte ++ q.map .crcByte)) s = .next u ∧
    t.crcOut = Latch.holding u.crcAcc ∧ u = { s with crcAcc := u.crcAcc, cursor := (p ++ q).length }

/-- R76 (b): the table-driven form of one byte step, linearity, and the constants of the table the rule lists. -/
def Obligations.CrcTableForm : Prop :=
  (∀ (acc : Half) (b : Byte),
    crcByteStep acc b = (acc >>> 8) ^^^ crcBits 8 ((acc.extractLsb' 0 8 ^^^ b).setWidth 16)) ∧
  (∀ u v : Half, crcBits 8 (u ^^^ v) = crcBits 8 u ^^^ crcBits 8 v) ∧
  (∀ h : Byte, crcBits 8 (h ++ 0#8) = 0#8 ++ h) ∧
  crcBits 8 0x0001#16 = 0xC0C1#16 ∧ crcBits 8 0x0080#16 = 0xA001#16 ∧ crcBits 8 0x00FF#16 = 0x4040#16

/-- R76 (a), (c): the empty message gives 0xFFFF; a message followed by its own CRC, low byte first, gives zero, and
followed by any other two bytes it does not. -/
def Obligations.CrcResidue : Prop :=
  crc16 [] = 0xFFFF#16 ∧
  ∀ (m : List Byte) (x y : Byte), crc16 (m ++ [x, y]) = 0#16 ↔ x = lo8 (crc16 m) ∧ y = hi8 (crc16 m)

/-! ## BUILD -/

/-- R80: `op` = 1 is BUILD; it leaves the request in `TX`; no operand value is refused (R81). What is left in `crc_acc` and the cursor is [4], the
handshake's end [3], and that `TX` is replaced whole [18]. -/
def Obligations.BuildResult : Prop :=
  decode (.op 1#3) = .ok .build ∧ ∀ (s : State) (slave : Byte) (startAddr quantity : Half), s.slave = Latch.holding slave →
    s.startAddr = Latch.holding startAddr → s.quantity = Latch.holding quantity →
    let body : List Byte := [slave, 0x03#8, startAddr.extractLsb' 8 8, startAddr.extractLsb' 0 8,
      quantity.extractLsb' 8 8, quantity.extractLsb' 0 8]
    let c := crc16 body
    exec .build s = .next { s with
      tx := Memory.ofBytes (body ++ [c.extractLsb' 0 8, c.extractLsb' 8 8]),
      crcAcc := c, cursor := 6, start := false, done := true }

/-- R82: recomputing the CRC over the first six bytes of a built request gives its last two, low byte first, and over all
eight gives zero. -/
def Obligations.BuildCrcRoundTrip : Prop :=
  ∀ s : State, s.slave.held = true → s.startAddr.held = true → s.quantity.held = true →
    ∃ (t : State) (b0 b1 b2 b3 b4 b5 b6 b7 : Byte), exec .build s = .next t ∧
      (t.tx.read 0 = some b0 ∧ t.tx.read 1 = some b1 ∧ t.tx.read 2 = some b2 ∧ t.tx.read 3 = some b3 ∧
        t.tx.read 4 = some b4 ∧ t.tx.read 5 = some b5 ∧ t.tx.read 6 = some b6 ∧ t.tx.read 7 = some b7) ∧
      crc16 [b0, b1, b2, b3, b4, b5] = le16 b6 b7 ∧
      crc16 [b0, b1, b2, b3, b4, b5, b6, b7] = 0#16

/-- R51, R80: the request frame as an instruction presents its fields and leaves the request with BUILD's own CRC in `TX`
[10], the frame itself when its CRC field is that; what is left in `crc_acc` and the cursor is [4], the handshake's end [3],
and that `TX` is replaced whole [18]. -/
def Obligations.RequestFrameBuilt : Prop :=
  ∀ (s : State) (slave : Byte) (startAddr quantity crc : Half),
    exec (.req slave startAddr quantity crc) s = .next { s with
      op := Latch.holding 1#3, slave := Latch.holding slave, startAddr := Latch.holding startAddr,
      quantity := Latch.holding quantity,
      tx := Memory.ofBytes (requestBytes slave startAddr quantity),
      crcAcc := crc16 (requestBody slave startAddr quantity), cursor := 6, start := false, done := true } ∧
    (crc = crc16 (requestBody slave startAddr quantity) →
      encode (.req slave startAddr quantity crc) = .request (requestBytes slave startAddr quantity))

/-! ## PARSE -/

/-- R97: the six rows of the outcome table, for every input, with the default parameters, and the numbers of the four
outcomes. The handshake's end is [3]; that the Frame latches keep their bits without a Frame is [19]. -/
def Obligations.ParseOutcomes : Prop :=
  (Status.ok.code = 0#2 ∧ Status.frameTooShort.code = 1#2 ∧ Status.crcMismatch.code = 2#2 ∧
    Status.protocolException.code = 3#2) ∧
  ∀ (s : State) (m : List Byte), s.RxHolds m → s.params.trailingPolicy = .framePositioned →
    s.params.excBadCrc = .crcMismatch →
    ∃ t, exec .parse s = .next t ∧ Delivered (expectedParse m) s t

/-- R91: fewer than five bytes: FrameTooShort, and no byte of `RX` is read, so that none need hold a value. The handshake's
end is [3]; that `crc_acc` and the cursor stay is [4], and that the Frame latches keep their bits [19]. -/
def Obligations.ParseShortInput : Prop :=
  ∀ (s : State) (n : Nat), s.rxLen = Latch.holding n → n ≤ s.params.rxMax → n < 5 →
    exec .parse s = .next { s with
      status := Latch.holding .frameTooShort, frameValid := false, start := false, done := true }

/-- R94, R95, R102 (b): under every `TRAILING_POLICY`, an input of at least five bytes shorter than the frame it declares is
FrameTooShort, and one of exactly that length has the outcome of the table; a longer one goes by the policy. [9] places the
refusal; the handshake's end is [3], and the Frame latches without a Frame [19]. -/
def Obligations.ParseLongerInput : Prop :=
  ∀ (s : State) (m : List Byte), s.RxHolds m → 5 ≤ m.length → s.params.excBadCrc = .crcMismatch →
    (m.length < declaredLength m → ∃ t, exec .parse s = .next t ∧ Delivered (.frameTooShort, none) s t) ∧
    (declaredLength m = m.length → ∃ t, exec .parse s = .next t ∧ Delivered (expectedParse m) s t) ∧
    (declaredLength m < m.length → s.params.trailingPolicy = .framePositioned →
      ∃ t, exec .parse s = .next t ∧ Delivered (expectedParse (m.take (declaredLength m))) s t) ∧
    (declaredLength m < m.length → s.params.trailingPolicy = .bufferEnd →
      ∃ t, exec .parse s = .next t ∧
        Delivered (expectedParse (m.take (declaredLength m - 2) ++ m.drop (m.length - 2))) s t) ∧
    (declaredLength m < m.length → s.params.trailingPolicy = .refuse →
      exec .parse s = .refused .trailingInput)

/-- R6, R93, R95, D7: an exception response of any length with a bad CRC, read where the policy reads it, gets the status
the parameter `EXC_BAD_CRC` names; with `protocolException` its Frame comes along by R14, which is the model's choice [8].
The handshake's end is [3], and the Frame latches without a Frame [19]. -/
def Obligations.ExceptionBadCrc : Prop :=
  ∀ (s : State) (m : List Byte) (a f e x y : Byte), s.RxHolds m → 5 ≤ m.length →
    m[0]? = some a → m[1]? = some f → m[2]? = some e → f.getLsbD 7 = true →
    (s.params.trailingPolicy = .refuse → m.length = 5) →
    (let p := if s.params.trailingPolicy = .bufferEnd then m.length - 2 else 3
     m[p]? = some x ∧ m[p + 1]? = some y) →
    crc16 [a, f, e] ≠ le16 x y →
    (s.params.excBadCrc = .crcMismatch →
      ∃ t, exec .parse s = .next t ∧ Delivered (.crcMismatch, none) s t) ∧
    (s.params.excBadCrc = .protocolException →
      ∃ t, exec .parse s = .next t ∧ Delivered (.protocolException, some ⟨a, f, [e], le16 x y⟩) s t)

/-- R100: a response synthesized with a valid CRC parses back to its slave, function and payload, whatever the
parameters; an exception response to its code, with the error. The handshake's end is [3]. -/
def Obligations.ParseBuildInverse : Prop :=
  ∀ (s : State) (a f : Byte),
    (∀ payload : List Byte, f.getLsbD 7 = false → payload.length ≤ 255 →
      let c := crc16 ([a, f, BitVec.ofNat 8 payload.length] ++ payload)
      s.RxHolds ([a, f, BitVec.ofNat 8 payload.length] ++ payload ++ [lo8 c, hi8 c]) →
      ∃ t, exec .parse s = .next t ∧ Delivered (.ok, some ⟨a, f, payload, c⟩) s t) ∧
    (∀ e : Byte, f.getLsbD 7 = true →
      let c := crc16 [a, f, e]
      s.RxHolds [a, f, e, lo8 c, hi8 c] →
      ∃ t, exec .parse s = .next t ∧ Delivered (.protocolException, some ⟨a, f, [e], c⟩) s t)

/-- R101: take an input that PARSE accepts, exactly as long as it declares, and change one payload byte, or the slave
address: PARSE of the result gives CRCMismatch, and no Frame. The status of the exception branch is the default of
`EXC_BAD_CRC`. -/
def Obligations.TamperDetected : Prop :=
  ∀ (s s' t : State) (m : List Byte) (i : Nat) (f b c : Byte), s.RxHolds m → s'.RxHolds (m.set i b) →
    s'.params = s.params → s.params.excBadCrc = .crcMismatch →
    exec .parse s = .next t → t.frameValid = true → declaredLength m = m.length →
    m[1]? = some f → m[i]? = some c → b ≠ c →
    (i = 0 ∨ (f.getLsbD 7 = true ∧ i = 2) ∨ (f.getLsbD 7 = false ∧ 3 ≤ i ∧ i + 2 < m.length)) →
    ∃ t', exec .parse s' = .next t' ∧ t'.status = Latch.holding .crcMismatch ∧ t'.frameValid = false

/-- R98: `frame.crc` is the CRC as received, low byte first, and, whenever a Frame is valid, the CRC of the covered bytes,
with the default of `EXC_BAD_CRC`. -/
def Obligations.FrameCrcIsLocal : Prop :=
  ∀ (s t : State) (m : List Byte), s.RxHolds m → s.params.excBadCrc = .crcMismatch →
    exec .parse s = .next t → t.frameValid = true →
    t.frame.crc = crc16 (m.take (declaredLength m - 2)) ∧
    ∃ lo hi : Byte,
      (let at_ := if s.params.trailingPolicy = .bufferEnd then m.length - 2 else declaredLength m - 2
       m[at_]? = some lo ∧ m[at_ + 1]? = some hi) ∧ t.frame.crc = le16 lo hi

/-- R52, R94: a normal response as an instruction is presented in `RX` and parsed [10], [18]: OK with its Frame when its CRC
field is the CRC of the bytes before it, else CRCMismatch. The handshake's end is [3], and the Frame latches without a Frame
[19]. -/
def Obligations.NormalResponseParsed : Prop :=
  ∀ (s : State) (a f : Byte) (data : List Byte) (crc : Half), f.getLsbD 7 = false → data.length ≤ 255 →
    5 + data.length ≤ s.params.rxMax →
    let u := (s.presentOp 2#3).presentRx (responseBytes a f data crc)
    ∃ t, exec (.rsp a f data crc) s = .next t ∧
      (crc16 ([a, f, BitVec.ofNat 8 data.length] ++ data) = crc →
        Delivered (.ok, some ⟨a, f, data, crc⟩) s t) ∧
      (crc16 ([a, f, BitVec.ofNat 8 data.length] ++ data) ≠ crc → Delivered (.crcMismatch, none) s t) ∧
      t = { u with status := t.status, frameValid := t.frameValid, frame := t.frame, crcAcc := t.crcAcc,
                   cursor := t.cursor, start := t.start, done := t.done }

/-- R53, R93: an exception response as an instruction is presented in `RX` and parsed [10], [18]: ProtocolException with its
Frame when its CRC field is right, else the status `EXC_BAD_CRC` names: CRCMismatch by default, and under its other value
ProtocolException with its Frame [8]. The handshake's end is [3], and the Frame latches without a Frame [19]. -/
def Obligations.ExceptionResponseParsed : Prop :=
  ∀ (s : State) (a f e : Byte) (crc : Half), f.getLsbD 7 = true → 5 ≤ s.params.rxMax →
    let u := (s.presentOp 2#3).presentRx (exceptionBytes a f e crc)
    ∃ t, exec (.exc a f e crc) s = .next t ∧
      (crc16 [a, f, e] = crc → Delivered (.protocolException, some ⟨a, f, [e], crc⟩) s t) ∧
      (crc16 [a, f, e] ≠ crc → s.params.excBadCrc = .crcMismatch → Delivered (.crcMismatch, none) s t) ∧
      (crc16 [a, f, e] ≠ crc → s.params.excBadCrc = .protocolException →
        Delivered (.protocolException, some ⟨a, f, [e], crc⟩) s t) ∧
      t = { u with status := t.status, frameValid := t.frameValid, frame := t.frame, crcAcc := t.crcAcc,
                   cursor := t.cursor, start := t.start, done := t.done }

/-- R16, R14: after PARSE, `frame_valid` is 1 exactly for OK and ProtocolException, and then the exception flag is 1
exactly when the status is ProtocolException. -/
def Obligations.ExceptionFlagAgrees : Prop :=
  ∀ s t : State, exec .parse s = .next t →
    (t.frameValid = true ↔ t.status = Latch.holding .ok ∨ t.status = Latch.holding .protocolException) ∧
    (t.frameValid = true → (t.exceptionFlag = true ↔ t.status.value.code = 3#2))

/-! ## F32SWAP, ISVALID, DECODE -/

/-- R110: `op` = 3 is F32SWAP: the shuffle and the pattern, for the four bytes of a register pair. The handshake's end is [3]. -/
def Obligations.F32SwapResult : Prop :=
  decode (.op 3#3) = .ok .f32swap ∧ ∀ (s : State) (b0 b1 b2 b3 : Byte), s.raw = Latch.holding ⟨b0, b1, b2, b3⟩ →
    exec .f32swap s = .next { s with
      shuf := Latch.holding ⟨b3, b2, b1, b0⟩, wordOut := Latch.holding (b0 ++ b1 ++ b2 ++ b3),
      start := false, done := true }

/-- R112: F32SWAP is a bijection from four bytes to 32-bit patterns. -/
def Obligations.SwapIsBijection : Prop := Function.Bijective swapWord

/-- R114, R113: `op` = 4 is ISVALID: `valid` is 0 exactly for a NaN (exponent 255, fraction not 0) and an infinity (exponent 255,
fraction 0), in the layout of [20]. The handshake's end is [3]. -/
def Obligations.IsValidResult : Prop :=
  decode (.op 4#3) = .ok .isvalid ∧ ∀ (s : State) (w : Word), s.wordIn = Latch.holding w →
    let e := w.toNat / 2 ^ 23 % 256
    let m := w.toNat % 2 ^ 23
    exec .isvalid s = .next { s with
      valid := Latch.holding (decide (¬(e = 255 ∧ m ≠ 0) ∧ ¬(e = 255 ∧ m = 0))),
      start := false, done := true }

/-- R115, R117, R118: `op` = 5 is DECODE: every lane is written: a present one with its pattern as it is, NaN and infinity included, an absent
one with `LANE_ABSENT_VALUE`. The handshake's end is [3]. -/
def Obligations.DecodeResult : Prop :=
  decode (.op 5#3) = .ok .decode ∧ ∀ (s : State) (p : BitVec 8), s.lanePresent = Latch.holding p →
    (∀ k : Fin 8, p.getLsbD k.val = true → (s.laneRaw.get k).held = true) →
    ∃ t, exec .decode s = .next t ∧
      t = { s with reading := t.reading, start := false, done := true } ∧
      ∀ k : Fin 8, t.reading.get k = Latch.holding
        (if p.getLsbD k.val then
          (s.laneRaw.get k).value.b0 ++ (s.laneRaw.get k).value.b1 ++ (s.laneRaw.get k).value.b2 ++
            (s.laneRaw.get k).value.b3
         else s.params.laneAbsentValue)

/-! ## All operations -/

/-- R21, D9: an operation stops, by name, at the first operand that holds no value, in the order of [2]: PARSE reads its two
header bytes, in the normal branch byteCount, then the CRC where the policy reads it, then the covered bytes upwards. The
step that starts an operation while `op` holds no value stops too [27], the host having nothing more to do or waiting
[5]. -/
def Obligations.MissingOperandFaults : Prop :=
  ∀ s : State,
    (s.rxLen.held = false → exec .crc16 s = .fault (.operandNoValue .rxLen) ∧
      exec .parse s = .fault (.operandNoValue .rxLen)) ∧
    (∀ n i, s.rxLen = Latch.holding n → n ≤ s.params.rxMax → i < n → s.rx.read i = none →
      (∀ j, j < i → (s.rx.read j).isSome) → exec .crc16 s = .fault (.operandNoValue (.rx i))) ∧
    (∀ n, s.rxLen = Latch.holding n → n ≤ s.params.rxMax → 5 ≤ n →
      (s.rx.read 0 = none → exec .parse s = .fault (.operandNoValue (.rx 0))) ∧
      ((s.rx.read 0).isSome → s.rx.read 1 = none → exec .parse s = .fault (.operandNoValue (.rx 1))) ∧
      ∀ f, (s.rx.read 0).isSome → s.rx.read 1 = some f →
        (f.getLsbD 7 = false → s.rx.read 2 = none → exec .parse s = .fault (.operandNoValue (.rx 2))) ∧
        ∀ k, (f.getLsbD 7 = true ∧ k = 3 ∨
            f.getLsbD 7 = false ∧ ∃ c, s.rx.read 2 = some c ∧ k = 3 + c.toNat ∧ k + 2 ≤ n) →
          (s.params.trailingPolicy = .refuse → n = k + 2) →
          let p := if s.params.trailingPolicy = .bufferEnd then n - 2 else k
          (s.rx.read p = none → exec .parse s = .fault (.operandNoValue (.rx p))) ∧
          ((s.rx.read p).isSome → s.rx.read (p + 1) = none →
            exec .parse s = .fault (.operandNoValue (.rx (p + 1)))) ∧
          ((s.rx.read p).isSome → (s.rx.read (p + 1)).isSome → ∀ i, i < k → s.rx.read i = none →
            (∀ j, j < i → (s.rx.read j).isSome) → exec .parse s = .fault (.operandNoValue (.rx i)))) ∧
    (s.slave.held = false → exec .build s = .fault (.operandNoValue .slave)) ∧
    (s.slave.held = true → s.startAddr.held = false → exec .build s = .fault (.operandNoValue .startAddr)) ∧
    (s.slave.held = true → s.startAddr.held = true → s.quantity.held = false →
      exec .build s = .fault (.operandNoValue .quantity)) ∧
    (s.raw.held = false → exec .f32swap s = .fault (.operandNoValue .raw)) ∧
    (s.wordIn.held = false → exec .isvalid s = .fault (.operandNoValue .wordIn)) ∧
    (s.lanePresent.held = false → exec .decode s = .fault (.operandNoValue .lanePresent)) ∧
    (s.lanePresent.held = true → ∀ k : Fin 8, s.lanePresent.value.getLsbD k.val = true →
      (s.laneRaw.get k).held = false →
      (∀ j : Fin 8, j < k → s.lanePresent.value.getLsbD j.val = true → (s.laneRaw.get j).held = true) →
      exec .decode s = .fault (.operandNoValue (.laneRaw k))) ∧
    (s.op.held = false → s.start = true → (s.inputs = [] ∨ ∃ rest, s.inputs = .wait :: rest) →
      step s = .fault (.operandNoValue .op))

/-- R22, R164: an operation writes the result latches R11 lists for it and no others, and no operand latch; the Frame
latches only when `frame_valid` is 1. Beside them it ends the handshake [3], and a CRC computation leaves `crc_acc` and the
cursor [4]. BUILD stores `TX[0..8)`, in a `TX` of eight bytes (the invariant `State.Inv`). -/
def Obligations.OperationsWriteOnlyResults : Prop :=
  ∀ (i : Instr) (s t : State), isOperation i = true → exec i s = .next t →
    SameOperands s t ∧ t.params = s.params ∧ t.inputs = s.inputs ∧
    (i ≠ .crc16 → t.crcOut = s.crcOut) ∧
    (i ≠ .build → ∀ a, t.tx.read a = s.tx.read a) ∧
    (s.tx.within 8 → ∀ a, 8 ≤ a → t.tx.read a = s.tx.read a) ∧
    (i ≠ .parse → t.status = s.status ∧ t.frameValid = s.frameValid) ∧
    (i ≠ .parse ∨ t.frameValid = false → t.frame = s.frame ∧
      ∀ a, t.frame.data.read a = s.frame.data.read a) ∧
    (i ≠ .f32swap → t.shuf = s.shuf ∧ t.wordOut = s.wordOut) ∧
    (i ≠ .isvalid → t.valid = s.valid) ∧
    (i ≠ .decode → t.reading = s.reading) ∧
    (i ≠ .crc16 → i ≠ .build → i ≠ .parse → t.crcAcc = s.crcAcc ∧ t.cursor = s.cursor)

/-- R195: every operation ends, once its operands are there, with `done` asserted, and `start` taken [3]; the micro-steps and
the frames as instructions complete too [10], [14]. -/
def Obligations.EveryOperationEnds : Prop :=
  ∀ (i : Instr) (s : State), Ready i s →
    ∃ t, exec i s = .next t ∧ (isOperation i = true → t.done = true ∧ t.start = false)

/-- R40: run twice on the same operands, an operation gives the same results and changes nothing else. -/
def Obligations.OperationsIdempotent : Prop :=
  ∀ (i : Instr) (s t : State), isOperation i = true → exec i s = .next t → exec i t = .next t

/-- R42 (3), R165: the results of an operation are a function of its operands only: whatever the result latches held
before (an earlier error among them), `crc_acc`, `start` and `done` included. -/
def Obligations.ResultsFromOperandsOnly : Prop :=
  ∀ (i : Instr) (s s' t : State), isOperation i = true → SameOperands s s' → s.params = s'.params →
    exec i s = .next t → ∃ t', exec i s' = .next t' ∧ SameResultsOf i t t'

/-- R42 (3): any two operations commute: in either order they leave the same operands and the same results. -/
def Obligations.OperationsCommute : Prop :=
  ∀ (i j : Instr) (s a b : State), isOperation i = true → isOperation j = true →
    exec i s = .next a → exec j s = .next b →
    ∃ c d, exec j a = .next c ∧ exec i b = .next d ∧ SameOperands c d ∧ SameResults c d

/-! ## Reset and the host -/

/-- R21, R180: right after reset `done` and `frame_valid` are 0 and every other operand and result latch is without a value; the parameters are
R6's defaults. -/
def Obligations.ResetHasNoValues : Prop :=
  State.reset.NoValues ∧ State.reset.params = ⟨260, .framePositioned, .crcMismatch, 0x00000000#32⟩

/-- R181, R180: a reset, an operation in progress or not, leaves no value in any latch and `done` at 0; the operation is
abandoned [3], [26]. -/
def Obligations.ResetAbandons : Prop :=
  ∀ (s : State) (rest : List HostAct), s.inputs = .reset :: rest →
    ∃ t, step s = .next t ∧ t.NoValues ∧ t.start = false ∧ t.params = s.params ∧ t.inputs = rest

/-- R186, U3: between `start` and `done` a change of `op`, or of an operand of the operation in hand, has no meaning [15];
that a write of the value already there counts as one is [29]. -/
def Obligations.OperandsMustBeStable : Prop :=
  ∀ (s : State) (a : HostAct) (rest : List HostAct) (l : OperandLatch), s.inputs = a :: rest →
    a.writes = some l → a.fits s.params.rxMax → s.start = true →
    (l = .op ∨ s.op.held = true ∧ l.usedBy s.op.value = true) → step s = .refused .operandsNotStable

/-- R11, R23, R31: a host write of a latch that is no operand of an operation in hand [27] puts the value there and touches no
other operand latch, no result, no handshake bit, no parameter, nor `crc_acc` and the cursor. That one lane presented or dropped keeps the bits of `lane_present` for the
others, and makes the latch hold a value, is [22]. What LANES_ELEC and LANES_ENERGY leave of the lanes is in statements of
their own. -/
def Obligations.HostWritesOperand : Prop :=
  ∀ (s : State) (a : HostAct) (rest : List HostAct) (l : OperandLatch), s.inputs = a :: rest →
    a.writes = some l → a.fits s.params.rxMax → a.mayRead s → s.inHand l = false →
    ∃ t, step s = .next t ∧ a.Wrote s t ∧ (∀ l', ¬ a.touches l' → l'.Same s t) ∧ SameResults s t ∧
      t.crcAcc = s.crcAcc ∧ t.cursor = s.cursor ∧ t.start = s.start ∧ t.done = s.done ∧
      t.params = s.params ∧ t.inputs = rest

/-- R31, U10: nothing beyond `RX_MAX` can be presented, by the host or as a response frame issued as an instruction [10],
and a count beyond it is not read [23]. -/
def Obligations.RxCapacity : Prop :=
  ∀ (s : State) (rest : List HostAct),
    (∀ i b, s.inputs = .setRxByte i b :: rest → s.params.rxMax ≤ i → step s = .refused .rxOverCapacity) ∧
    (∀ n, s.inputs = .setRxLen n :: rest → s.params.rxMax < n → step s = .refused .rxOverCapacity) ∧
    (∀ m, s.inputs = .exchange m :: rest → s.params.rxMax < m.length → step s = .refused .rxOverCapacity) ∧
    (s.rxLen.held = true → s.params.rxMax < s.rxLen.value →
      exec .crc16 s = .refused .rxOverCapacity ∧ exec .parse s = .refused .rxOverCapacity) ∧
    (∀ a f data crc, s.params.rxMax < 5 + data.length →
      exec (.rsp a f data crc) s = .refused .rxOverCapacity) ∧
    (∀ a f e crc, s.params.rxMax < 5 → exec (.exc a f e crc) s = .refused .rxOverCapacity)

/-- R188, R14, R21, R40, U4: a host read of a result changes nothing; it stops when the latch holds no value, the Frame
latches when `frame_valid` is 0, and before `done` [16]; `frame_valid` itself can always be read after `done`. -/
def Obligations.ResultReads : Prop :=
  ∀ (s : State) (l : ResultLatch) (rest : List HostAct), s.inputs = .read l :: rest →
    (s.holdsResult l = true → s.done = true → step s = .next { s with inputs := rest }) ∧
    (s.holdsResult l = true → s.done = false → step s = .refused .readBeforeDone) ∧
    (s.holdsResult l = false → step s = .fault (.resultNoValue l)) ∧
    (l = .frameValid → s.done = true → step s = .next { s with inputs := rest }) ∧
    (s.frameValid = false →
      (l = .frameSlave ∨ l = .frameFunction ∨ (∃ i, l = .frameData i) ∨ l = .frameDataLen ∨ l = .frameCrc) →
      step s = .fault (.resultNoValue l))

/-! ## Invariants -/

/-- The invariant holds right after reset. -/
def Obligations.InvAtReset : Prop := State.reset.Inv

/-- Every step keeps the invariant: canonical buffers inside their capacities (R30, R31), a Frame exactly when the status
gives one, with all its bytes (R14), the exception flag in step with the status (R16), `start` and `done` never both 1
[3]. -/
def Obligations.StepKeepsInv : Prop :=
  ∀ s t : State, s.Inv → step s = .next t → t.Inv

/-- R19: no step changes a parameter. -/
def Obligations.StepKeepsParams : Prop :=
  ∀ s t : State, step s = .next t → t.params = s.params

/-! ## Pseudo-operations and the register map -/

/-- R61: READ_ELEC and READ_ENERGY leave the two requests of the register map in `TX`, which is replaced whole [18], in the
seven steps the host's actions take [5]. -/
def Obligations.ReadRequestsBuilt : Prop :=
  ∀ (s : State) (slave : Byte) (rest : List HostAct), s.start = false →
    (s.inputs = readElec slave ++ rest → ∃ t, Host.Core.run Sys2Proof.core 7 s = .next t ∧
      t.tx = Memory.ofBytes (requestBytes slave 0x2000#16 16#16) ∧ t.done = true ∧ t.inputs = rest) ∧
    (s.inputs = readEnergy slave ++ rest → ∃ t, Host.Core.run Sys2Proof.core 7 s = .next t ∧
      t.tx = Memory.ofBytes (requestBytes slave 0x4000#16 2#16) ∧ t.done = true ∧ t.inputs = rest)

/-- R38: the payload offset of a lane is twice the distance of its register from the block's first one. -/
def Obligations.LaneOffsetsFollowMap : Prop :=
  ∀ k : Fin 8, laneOffset k = 2 * ((laneAddress k).toNat - (blockStart k).toNat)

/-- R116, R61 LANES_ELEC, R39, R188: lanes 0 to 6 are presented from the payload of a Frame read with status OK, those that
lie inside it, and as absent otherwise, a ProtocolException Frame included; lane 7 stays [22]. Before `done` it is refused
[16]. -/
def Obligations.LanesElecSlices : Prop :=
  ∀ (s : State) (rest : List HostAct), s.inputs = .lanesElec :: rest → s.inHand .lanePresent = false →
    (s.done = true → ∃ t, step s = .next t ∧ SlicedLanes [0, 1, 2, 3, 4, 5, 6] s t) ∧
    (s.done = false → step s = .refused .readBeforeDone)

/-- R61 CHECK, R76 (c): comparing the CRC of all but the last two bytes with those two is the same as the CRC of the whole
being zero. -/
def Obligations.CheckMeansResidue : Prop :=
  ∀ bytes : List Byte, 2 ≤ bytes.length → (checkCrc bytes = true ↔ crc16 bytes = 0#16)

/-- R83: the length of a normal answer to a request for `quantity` registers, of the two the host makes, and of an
exception. -/
def Obligations.AnswerLengths : Prop :=
  (∀ (quantity crc : Half) (a f : Byte) (data : List Byte), data.length = expectedByteCount quantity →
    (responseBytes a f data crc).length = expectedLength quantity) ∧
  expectedLength 16#16 = 37 ∧ expectedLength 2#16 = 9 ∧ expectedLength 125#16 = 255 ∧
  ∀ (a f e : Byte) (crc : Half), (exceptionBytes a f e crc).length = 5

/-- R116, R61 LANES_ENERGY, R39, R188: lane 7 is presented from the first four bytes of the payload of a Frame read with
status OK, and as absent otherwise; lanes 0 to 6 stay [22]. Before `done` it is refused [16]. -/
def Obligations.LanesEnergySlices : Prop :=
  ∀ (s : State) (rest : List HostAct), s.inputs = .lanesEnergy :: rest → s.inHand .lanePresent = false →
    (s.done = true → ∃ t, step s = .next t ∧ SlicedLanes [7] s t) ∧
    (s.done = false → step s = .refused .readBeforeDone)
end

