-- ==== Sys2Proof/Laws/Crc.lean ====
section
/-!
SUPPORT. The algebra of the CRC steps: linearity over XOR, injectivity, and sequencing over messages.
-/

namespace Sys2Proof.Machine

@[simp] theorem crcBits_zero (acc : Half) : crcBits 0 acc = acc := rfl

theorem crcBits_succ (n : Nat) (acc : Half) : crcBits (n + 1) acc = crcBits n (crcBitStep acc) := rfl

/-- The bits of one bit step, without a case distinction. -/
theorem crcBitStep_getLsbD (acc : Half) (i : Nat) :
    (crcBitStep acc).getLsbD i =
      ((acc.getLsbD (i + 1) && decide (i < 16)) ^^ (acc.getLsbD 0 && crcPoly.getLsbD i)) := by
  unfold crcBitStep
  by_cases hi : i < 16
  · split_ifs with h
    · simp_all [Nat.add_comm 1 i]
    · simp_all [Nat.add_comm 1 i]
  · split_ifs with h
    · simp_all [BitVec.getLsbD_of_ge, Nat.not_lt.mp hi]
    · simp_all [BitVec.getLsbD_of_ge, Nat.not_lt.mp hi]

theorem crcBitStep_xor (u v : Half) : crcBitStep (u ^^^ v) = crcBitStep u ^^^ crcBitStep v := by
  apply BitVec.eq_of_getLsbD_eq
  intro i hi
  simp only [BitVec.getLsbD_xor, crcBitStep_getLsbD, hi, decide_true, Bool.and_true]
  cases u.getLsbD (i + 1) <;> cases v.getLsbD (i + 1) <;> cases u.getLsbD 0 <;> cases v.getLsbD 0 <;>
    cases crcPoly.getLsbD i <;> rfl

@[simp] theorem crcBitStep_zero : crcBitStep 0#16 = 0#16 := by decide

theorem crcBits_xor (n : Nat) (u v : Half) : crcBits n (u ^^^ v) = crcBits n u ^^^ crcBits n v := by
  induction n generalizing u v with
  | zero => rfl
  | succ n ih => rw [crcBits_succ, crcBits_succ, crcBits_succ, crcBitStep_xor, ih]

/-- Only zero is shifted to zero: bit 15 of the constant tells the bit that was dropped. -/
theorem crcBitStep_eq_zero {u : Half} (h : crcBitStep u = 0#16) : u = 0#16 := by
  have bit : ∀ i, (crcBitStep u).getLsbD i = false := fun i => by rw [h]; simp
  have h0 : u.getLsbD 0 = false := by
    have := bit 15
    have h16 : u.getLsbD 16 = false := BitVec.getLsbD_of_ge _ _ (by omega)
    have hp : crcPoly.getLsbD 15 = true := by decide
    rw [crcBitStep_getLsbD, h16, hp] at this
    revert this
    cases u.getLsbD 0 <;> decide
  apply BitVec.eq_of_getLsbD_eq
  intro i hi
  cases i with
  | zero => rw [h0]; rfl
  | succ j =>
    have := bit j
    rw [crcBitStep_getLsbD, h0] at this
    have hj : j < 16 := by omega
    simpa [hj] using this

theorem crcBits_eq_zero {n : Nat} {u : Half} (h : crcBits n u = 0#16) : u = 0#16 := by
  induction n generalizing u with
  | zero => exact h
  | succ n ih => exact crcBitStep_eq_zero (ih h)

theorem crcBits_injective (n : Nat) : Function.Injective (crcBits n) := by
  intro u v h
  have : crcBits n (u ^^^ v) = 0#16 := by rw [crcBits_xor, h, BitVec.xor_self]
  exact BitVec.xor_eq_zero_iff.mp (crcBits_eq_zero this)

/-- A different accumulator stays different over the same byte. -/
theorem crcByteStep_injective (b : Byte) : Function.Injective fun acc => crcByteStep acc b := by
  intro u v h
  exact BitVec.xor_left_inj _ |>.mp (crcBits_injective 8 h)

/-- A different byte gives a different accumulator. -/
theorem crcByteStep_byte_injective (acc : Half) : Function.Injective (crcByteStep acc) := by
  intro b c h
  have h1 : b.setWidth 16 = c.setWidth 16 := (BitVec.xor_right_inj _).mp (crcBits_injective 8 h)
  have h2 := congrArg BitVec.toNat h1
  apply BitVec.eq_of_toNat_eq
  have hb := b.isLt
  have hc := c.isLt
  simpa [BitVec.toNat_setWidth, Nat.mod_eq_of_lt, show b.toNat < 65536 by omega, show c.toNat < 65536 by omega] using h2

@[simp] theorem crcFrom_nil (acc : Half) : crcFrom acc [] = acc := rfl

@[simp] theorem crcFrom_cons (acc : Half) (b : Byte) (m : List Byte) :
    crcFrom acc (b :: m) = crcFrom (crcByteStep acc b) m := rfl

theorem crcFrom_append (acc : Half) (p q : List Byte) : crcFrom acc (p ++ q) = crcFrom (crcFrom acc p) q := by
  induction p generalizing acc with
  | nil => rfl
  | cons b p ih => simp [ih]

theorem crcFrom_injective (m : List Byte) : Function.Injective fun acc => crcFrom acc m := by
  induction m with
  | nil => exact fun _ _ h => h
  | cons b m ih => exact fun u v h => crcByteStep_injective b (ih h)

/-- A change of one byte changes the checksum, whatever comes before and after. -/
theorem crc16_ne_of_byte_ne (p q : List Byte) {b c : Byte} (h : b ≠ c) :
    crc16 (p ++ b :: q) ≠ crc16 (p ++ c :: q) := by
  intro e
  simp only [crc16, crcFrom_append, crcFrom_cons] at e
  exact h (crcByteStep_byte_injective _ (crcFrom_injective q e))

end Sys2Proof.Machine
end

