-- ==== Sys2Proof/Laws/Memory.lean ====
section
/-!
SUPPORT. The laws of the byte buffers: what a read gives after a write, and that every operation keeps the canonical form.
-/

namespace Sys2Proof.Machine

@[simp] theorem Memory.read_nil (a : Nat) : Memory.read [] a = none := rfl

theorem Memory.read_write_same (m : Memory) (a : Nat) (b : Byte) : (m.write a b).read a = some b := by
  induction m with
  | nil => simp [Memory.write, Memory.read]
  | cons x m ih =>
    obtain ⟨k, c⟩ := x
    simp only [Memory.write]
    split_ifs with h1 h2
    · simp [Memory.read]
    · simp [Memory.read]
    · simp [Memory.read, Ne.symm h2, ih]

theorem Memory.read_write_other (m : Memory) {a i : Nat} (b : Byte) (h : i ≠ a) :
    (m.write a b).read i = m.read i := by
  induction m with
  | nil => simp [Memory.write, Memory.read, Ne.symm h]
  | cons x m ih =>
    obtain ⟨k, c⟩ := x
    simp only [Memory.write]
    split_ifs with h1 h2
    · simp [Memory.read, Ne.symm h]
    · subst h2; simp [Memory.read, Ne.symm h]
    · simp [Memory.read, ih]

theorem Memory.mem_write {m : Memory} {a : Nat} {b : Byte} {x : Host.Cell} (h : x ∈ m.write a b) :
    x = (a, b) ∨ x ∈ m := by
  induction m with
  | nil => simpa [Memory.write] using h
  | cons y m ih =>
    obtain ⟨k, c⟩ := y
    simp only [Memory.write] at h
    split_ifs at h with h1 h2
    · simpa using h
    · simp only [List.mem_cons] at h ⊢; tauto
    · rcases List.mem_cons.mp h with rfl | h
      · exact .inr (by simp)
      · exact (ih h).imp id (List.mem_cons_of_mem _)

theorem Memory.write_wf {m : Memory} (h : m.wf) (a : Nat) (b : Byte) : (m.write a b).wf := by
  induction m with
  | nil => simp [Memory.write, Memory.wf]
  | cons x m ih =>
    obtain ⟨k, c⟩ := x
    obtain ⟨hk, hm⟩ := List.pairwise_cons.mp h
    simp only [Memory.write]
    split_ifs with h1 h2
    · refine List.pairwise_cons.mpr ⟨fun y hy => ?_, h⟩
      rcases List.mem_cons.mp hy with rfl | hy
      · exact h1
      · exact lt_trans h1 (hk y hy)
    · subst h2; exact List.pairwise_cons.mpr ⟨hk, hm⟩
    · refine List.pairwise_cons.mpr ⟨fun y hy => ?_, ih hm⟩
      rcases Memory.mem_write hy with rfl | hy
      · exact lt_of_le_of_ne (not_lt.mp h1) (Ne.symm h2)
      · exact hk y hy

theorem Memory.write_within {m : Memory} {n a : Nat} (h : m.within n) (ha : a < n) (b : Byte) :
    (m.write a b).within n := by
  intro x hx
  rcases Memory.mem_write hx with rfl | hx
  · exact ha
  · exact h x hx

theorem Memory.read_bytesFrom (a i : Nat) (bytes : List Byte) :
    (Memory.bytesFrom a bytes).read i = if a ≤ i then bytes[i - a]? else none := by
  induction bytes generalizing a with
  | nil => simp [Memory.bytesFrom]
  | cons b bs ih =>
    simp only [Memory.bytesFrom, Memory.read, ih]
    rcases Nat.lt_trichotomy a i with h | h | h
    · rw [if_neg (by omega), if_pos (by omega), if_pos (by omega)]
      obtain ⟨d, rfl⟩ := Nat.exists_eq_add_of_lt h
      have h1 : a + d + 1 - (a + 1) = d := by omega
      have h2 : a + d + 1 - a = d + 1 := by omega
      rw [h1, h2]; rfl
    · subst h; simp
    · rw [if_neg (by omega), if_neg (by omega), if_neg (by omega)]

@[simp] theorem Memory.read_ofBytes (bytes : List Byte) (i : Nat) : (Memory.ofBytes bytes).read i = bytes[i]? := by
  simp [Memory.ofBytes, Memory.read_bytesFrom]

theorem Memory.bytesFrom_bounds {a : Nat} {bytes : List Byte} {x : Host.Cell}
    (h : x ∈ Memory.bytesFrom a bytes) : a ≤ x.1 ∧ x.1 < a + bytes.length := by
  induction bytes generalizing a with
  | nil => simp [Memory.bytesFrom] at h
  | cons b bs ih =>
    simp only [Memory.bytesFrom, List.mem_cons, List.length_cons] at h ⊢
    rcases h with rfl | h
    · simp
    · have := ih h; omega

theorem Memory.bytesFrom_wf (a : Nat) (bytes : List Byte) : (Memory.bytesFrom a bytes).wf := by
  induction bytes generalizing a with
  | nil => simp [Memory.bytesFrom, Memory.wf]
  | cons b bs ih =>
    refine List.pairwise_cons.mpr ⟨fun y hy => ?_, ih (a + 1)⟩
    have := (Memory.bytesFrom_bounds hy).1
    show a < y.1
    omega

theorem Memory.ofBytes_wf (bytes : List Byte) : (Memory.ofBytes bytes).wf := Memory.bytesFrom_wf 0 bytes

theorem Memory.ofBytes_within {bytes : List Byte} {n : Nat} (h : bytes.length ≤ n) :
    (Memory.ofBytes bytes).within n := by
  intro x hx
  have := (Memory.bytesFrom_bounds hx).2
  omega

/-- The bytes of a range, when each of them is there. -/
theorem Memory.range_eq {m : Memory} {a : Nat} {bytes : List Byte}
    (h : ∀ i, i < bytes.length → m.read (a + i) = bytes[i]?) : m.range a bytes.length = bytes := by
  induction bytes generalizing a with
  | nil => rfl
  | cons b bs ih =>
    have h0 := h 0 (by simp)
    simp only [Nat.add_zero, List.getElem?_cons_zero] at h0
    simp only [List.length_cons, Memory.range, h0]
    rw [ih fun i hi => ?_]
    have := h (i + 1) (by simpa using hi)
    simpa [Nat.add_assoc, Nat.add_comm 1 i] using this

@[simp] theorem Memory.range_ofBytes (bytes : List Byte) :
    (Memory.ofBytes bytes).range 0 bytes.length = bytes :=
  Memory.range_eq fun i _ => by simp

end Sys2Proof.Machine
end

