-- ==== Sys2Proof/Laws/State.lean ====
section
/-!
SUPPORT. What each named update of State leaves in each field: one lemma per field per update.
-/

namespace Sys2Proof.Machine

@[simp] theorem finish_params (s : State) : (s.finish).params = s.params := rfl
@[simp] theorem finish_start (s : State) : (s.finish).start = false := rfl
@[simp] theorem finish_done (s : State) : (s.finish).done = true := rfl
@[simp] theorem finish_op (s : State) : (s.finish).op = s.op := rfl
@[simp] theorem finish_slave (s : State) : (s.finish).slave = s.slave := rfl
@[simp] theorem finish_startAddr (s : State) : (s.finish).startAddr = s.startAddr := rfl
@[simp] theorem finish_quantity (s : State) : (s.finish).quantity = s.quantity := rfl
@[simp] theorem finish_rx (s : State) : (s.finish).rx = s.rx := rfl
@[simp] theorem finish_rxLen (s : State) : (s.finish).rxLen = s.rxLen := rfl
@[simp] theorem finish_raw (s : State) : (s.finish).raw = s.raw := rfl
@[simp] theorem finish_wordIn (s : State) : (s.finish).wordIn = s.wordIn := rfl
@[simp] theorem finish_laneRaw (s : State) : (s.finish).laneRaw = s.laneRaw := rfl
@[simp] theorem finish_lanePresent (s : State) : (s.finish).lanePresent = s.lanePresent := rfl
@[simp] theorem finish_crcAcc (s : State) : (s.finish).crcAcc = s.crcAcc := rfl
@[simp] theorem finish_cursor (s : State) : (s.finish).cursor = s.cursor := rfl
@[simp] theorem finish_crcOut (s : State) : (s.finish).crcOut = s.crcOut := rfl
@[simp] theorem finish_tx (s : State) : (s.finish).tx = s.tx := rfl
@[simp] theorem finish_status (s : State) : (s.finish).status = s.status := rfl
@[simp] theorem finish_frameValid (s : State) : (s.finish).frameValid = s.frameValid := rfl
@[simp] theorem finish_frame (s : State) : (s.finish).frame = s.frame := rfl
@[simp] theorem finish_shuf (s : State) : (s.finish).shuf = s.shuf := rfl
@[simp] theorem finish_wordOut (s : State) : (s.finish).wordOut = s.wordOut := rfl
@[simp] theorem finish_valid (s : State) : (s.finish).valid = s.valid := rfl
@[simp] theorem finish_reading (s : State) : (s.finish).reading = s.reading := rfl
@[simp] theorem finish_inputs (s : State) : (s.finish).inputs = s.inputs := rfl

@[simp] theorem ranCrc_params (s : State) (acc : Half) (n : Nat) : (s.ranCrc acc n).params = s.params := rfl
@[simp] theorem ranCrc_start (s : State) (acc : Half) (n : Nat) : (s.ranCrc acc n).start = s.start := rfl
@[simp] theorem ranCrc_done (s : State) (acc : Half) (n : Nat) : (s.ranCrc acc n).done = s.done := rfl
@[simp] theorem ranCrc_op (s : State) (acc : Half) (n : Nat) : (s.ranCrc acc n).op = s.op := rfl
@[simp] theorem ranCrc_slave (s : State) (acc : Half) (n : Nat) : (s.ranCrc acc n).slave = s.slave := rfl
@[simp] theorem ranCrc_startAddr (s : State) (acc : Half) (n : Nat) : (s.ranCrc acc n).startAddr = s.startAddr := rfl
@[simp] theorem ranCrc_quantity (s : State) (acc : Half) (n : Nat) : (s.ranCrc acc n).quantity = s.quantity := rfl
@[simp] theorem ranCrc_rx (s : State) (acc : Half) (n : Nat) : (s.ranCrc acc n).rx = s.rx := rfl
@[simp] theorem ranCrc_rxLen (s : State) (acc : Half) (n : Nat) : (s.ranCrc acc n).rxLen = s.rxLen := rfl
@[simp] theorem ranCrc_raw (s : State) (acc : Half) (n : Nat) : (s.ranCrc acc n).raw = s.raw := rfl
@[simp] theorem ranCrc_wordIn (s : State) (acc : Half) (n : Nat) : (s.ranCrc acc n).wordIn = s.wordIn := rfl
@[simp] theorem ranCrc_laneRaw (s : State) (acc : Half) (n : Nat) : (s.ranCrc acc n).laneRaw = s.laneRaw := rfl
@[simp] theorem ranCrc_lanePresent (s : State) (acc : Half) (n : Nat) : (s.ranCrc acc n).lanePresent = s.lanePresent := rfl
@[simp] theorem ranCrc_crcAcc (s : State) (acc : Half) (n : Nat) : (s.ranCrc acc n).crcAcc = acc := rfl
@[simp] theorem ranCrc_cursor (s : State) (acc : Half) (n : Nat) : (s.ranCrc acc n).cursor = n := rfl
@[simp] theorem ranCrc_crcOut (s : State) (acc : Half) (n : Nat) : (s.ranCrc acc n).crcOut = s.crcOut := rfl
@[simp] theorem ranCrc_tx (s : State) (acc : Half) (n : Nat) : (s.ranCrc acc n).tx = s.tx := rfl
@[simp] theorem ranCrc_status (s : State) (acc : Half) (n : Nat) : (s.ranCrc acc n).status = s.status := rfl
@[simp] theorem ranCrc_frameValid (s : State) (acc : Half) (n : Nat) : (s.ranCrc acc n).frameValid = s.frameValid := rfl
@[simp] theorem ranCrc_frame (s : State) (acc : Half) (n : Nat) : (s.ranCrc acc n).frame = s.frame := rfl
@[simp] theorem ranCrc_shuf (s : State) (acc : Half) (n : Nat) : (s.ranCrc acc n).shuf = s.shuf := rfl
@[simp] theorem ranCrc_wordOut (s : State) (acc : Half) (n : Nat) : (s.ranCrc acc n).wordOut = s.wordOut := rfl
@[simp] theorem ranCrc_valid (s : State) (acc : Half) (n : Nat) : (s.ranCrc acc n).valid = s.valid := rfl
@[simp] theorem ranCrc_reading (s : State) (acc : Half) (n : Nat) : (s.ranCrc acc n).reading = s.reading := rfl
@[simp] theorem ranCrc_inputs (s : State) (acc : Half) (n : Nat) : (s.ranCrc acc n).inputs = s.inputs := rfl

@[simp] theorem report_params (s : State) (o : Status) (f : Option Frame) : (s.report o f).params = s.params := by cases f <;> rfl
@[simp] theorem report_start (s : State) (o : Status) (f : Option Frame) : (s.report o f).start = s.start := by cases f <;> rfl
@[simp] theorem report_done (s : State) (o : Status) (f : Option Frame) : (s.report o f).done = s.done := by cases f <;> rfl
@[simp] theorem report_op (s : State) (o : Status) (f : Option Frame) : (s.report o f).op = s.op := by cases f <;> rfl
@[simp] theorem report_slave (s : State) (o : Status) (f : Option Frame) : (s.report o f).slave = s.slave := by cases f <;> rfl
@[simp] theorem report_startAddr (s : State) (o : Status) (f : Option Frame) : (s.report o f).startAddr = s.startAddr := by cases f <;> rfl
@[simp] theorem report_quantity (s : State) (o : Status) (f : Option Frame) : (s.report o f).quantity = s.quantity := by cases f <;> rfl
@[simp] theorem report_rx (s : State) (o : Status) (f : Option Frame) : (s.report o f).rx = s.rx := by cases f <;> rfl
@[simp] theorem report_rxLen (s : State) (o : Status) (f : Option Frame) : (s.report o f).rxLen = s.rxLen := by cases f <;> rfl
@[simp] theorem report_raw (s : State) (o : Status) (f : Option Frame) : (s.report o f).raw = s.raw := by cases f <;> rfl
@[simp] theorem report_wordIn (s : State) (o : Status) (f : Option Frame) : (s.report o f).wordIn = s.wordIn := by cases f <;> rfl
@[simp] theorem report_laneRaw (s : State) (o : Status) (f : Option Frame) : (s.report o f).laneRaw = s.laneRaw := by cases f <;> rfl
@[simp] theorem report_lanePresent (s : State) (o : Status) (f : Option Frame) : (s.report o f).lanePresent = s.lanePresent := by cases f <;> rfl
@[simp] theorem report_crcAcc (s : State) (o : Status) (f : Option Frame) : (s.report o f).crcAcc = s.crcAcc := by cases f <;> rfl
@[simp] theorem report_cursor (s : State) (o : Status) (f : Option Frame) : (s.report o f).cursor = s.cursor := by cases f <;> rfl
@[simp] theorem report_crcOut (s : State) (o : Status) (f : Option Frame) : (s.report o f).crcOut = s.crcOut := by cases f <;> rfl
@[simp] theorem report_tx (s : State) (o : Status) (f : Option Frame) : (s.report o f).tx = s.tx := by cases f <;> rfl
@[simp] theorem report_status (s : State) (o : Status) (f : Option Frame) : (s.report o f).status = Latch.holding o := by cases f <;> rfl
@[simp] theorem report_frameValid (s : State) (o : Status) (f : Option Frame) : (s.report o f).frameValid = f.isSome := by cases f <;> rfl
@[simp] theorem report_frame (s : State) (o : Status) (f : Option Frame) : (s.report o f).frame = f.getD s.frame := by cases f <;> rfl
@[simp] theorem report_shuf (s : State) (o : Status) (f : Option Frame) : (s.report o f).shuf = s.shuf := by cases f <;> rfl
@[simp] theorem report_wordOut (s : State) (o : Status) (f : Option Frame) : (s.report o f).wordOut = s.wordOut := by cases f <;> rfl
@[simp] theorem report_valid (s : State) (o : Status) (f : Option Frame) : (s.report o f).valid = s.valid := by cases f <;> rfl
@[simp] theorem report_reading (s : State) (o : Status) (f : Option Frame) : (s.report o f).reading = s.reading := by cases f <;> rfl
@[simp] theorem report_inputs (s : State) (o : Status) (f : Option Frame) : (s.report o f).inputs = s.inputs := by cases f <;> rfl

@[simp] theorem presentOp_params (s : State) (b : BitVec 3) : (s.presentOp b).params = s.params := rfl
@[simp] theorem presentOp_start (s : State) (b : BitVec 3) : (s.presentOp b).start = s.start := rfl
@[simp] theorem presentOp_done (s : State) (b : BitVec 3) : (s.presentOp b).done = s.done := rfl
@[simp] theorem presentOp_op (s : State) (b : BitVec 3) : (s.presentOp b).op = Latch.holding b := rfl
@[simp] theorem presentOp_slave (s : State) (b : BitVec 3) : (s.presentOp b).slave = s.slave := rfl
@[simp] theorem presentOp_startAddr (s : State) (b : BitVec 3) : (s.presentOp b).startAddr = s.startAddr := rfl
@[simp] theorem presentOp_quantity (s : State) (b : BitVec 3) : (s.presentOp b).quantity = s.quantity := rfl
@[simp] theorem presentOp_rx (s : State) (b : BitVec 3) : (s.presentOp b).rx = s.rx := rfl
@[simp] theorem presentOp_rxLen (s : State) (b : BitVec 3) : (s.presentOp b).rxLen = s.rxLen := rfl
@[simp] theorem presentOp_raw (s : State) (b : BitVec 3) : (s.presentOp b).raw = s.raw := rfl
@[simp] theorem presentOp_wordIn (s : State) (b : BitVec 3) : (s.presentOp b).wordIn = s.wordIn := rfl
@[simp] theorem presentOp_laneRaw (s : State) (b : BitVec 3) : (s.presentOp b).laneRaw = s.laneRaw := rfl
@[simp] theorem presentOp_lanePresent (s : State) (b : BitVec 3) : (s.presentOp b).lanePresent = s.lanePresent := rfl
@[simp] theorem presentOp_crcAcc (s : State) (b : BitVec 3) : (s.presentOp b).crcAcc = s.crcAcc := rfl
@[simp] theorem presentOp_cursor (s : State) (b : BitVec 3) : (s.presentOp b).cursor = s.cursor := rfl
@[simp] theorem presentOp_crcOut (s : State) (b : BitVec 3) : (s.presentOp b).crcOut = s.crcOut := rfl
@[simp] theorem presentOp_tx (s : State) (b : BitVec 3) : (s.presentOp b).tx = s.tx := rfl
@[simp] theorem presentOp_status (s : State) (b : BitVec 3) : (s.presentOp b).status = s.status := rfl
@[simp] theorem presentOp_frameValid (s : State) (b : BitVec 3) : (s.presentOp b).frameValid = s.frameValid := rfl
@[simp] theorem presentOp_frame (s : State) (b : BitVec 3) : (s.presentOp b).frame = s.frame := rfl
@[simp] theorem presentOp_shuf (s : State) (b : BitVec 3) : (s.presentOp b).shuf = s.shuf := rfl
@[simp] theorem presentOp_wordOut (s : State) (b : BitVec 3) : (s.presentOp b).wordOut = s.wordOut := rfl
@[simp] theorem presentOp_valid (s : State) (b : BitVec 3) : (s.presentOp b).valid = s.valid := rfl
@[simp] theorem presentOp_reading (s : State) (b : BitVec 3) : (s.presentOp b).reading = s.reading := rfl
@[simp] theorem presentOp_inputs (s : State) (b : BitVec 3) : (s.presentOp b).inputs = s.inputs := rfl

@[simp] theorem presentRx_params (s : State) (m : List Byte) : (s.presentRx m).params = s.params := rfl
@[simp] theorem presentRx_start (s : State) (m : List Byte) : (s.presentRx m).start = s.start := rfl
@[simp] theorem presentRx_done (s : State) (m : List Byte) : (s.presentRx m).done = s.done := rfl
@[simp] theorem presentRx_op (s : State) (m : List Byte) : (s.presentRx m).op = s.op := rfl
@[simp] theorem presentRx_slave (s : State) (m : List Byte) : (s.presentRx m).slave = s.slave := rfl
@[simp] theorem presentRx_startAddr (s : State) (m : List Byte) : (s.presentRx m).startAddr = s.startAddr := rfl
@[simp] theorem presentRx_quantity (s : State) (m : List Byte) : (s.presentRx m).quantity = s.quantity := rfl
@[simp] theorem presentRx_rx (s : State) (m : List Byte) : (s.presentRx m).rx = Memory.ofBytes m := rfl
@[simp] theorem presentRx_rxLen (s : State) (m : List Byte) : (s.presentRx m).rxLen = Latch.holding m.length := rfl
@[simp] theorem presentRx_raw (s : State) (m : List Byte) : (s.presentRx m).raw = s.raw := rfl
@[simp] theorem presentRx_wordIn (s : State) (m : List Byte) : (s.presentRx m).wordIn = s.wordIn := rfl
@[simp] theorem presentRx_laneRaw (s : State) (m : List Byte) : (s.presentRx m).laneRaw = s.laneRaw := rfl
@[simp] theorem presentRx_lanePresent (s : State) (m : List Byte) : (s.presentRx m).lanePresent = s.lanePresent := rfl
@[simp] theorem presentRx_crcAcc (s : State) (m : List Byte) : (s.presentRx m).crcAcc = s.crcAcc := rfl
@[simp] theorem presentRx_cursor (s : State) (m : List Byte) : (s.presentRx m).cursor = s.cursor := rfl
@[simp] theorem presentRx_crcOut (s : State) (m : List Byte) : (s.presentRx m).crcOut = s.crcOut := rfl
@[simp] theorem presentRx_tx (s : State) (m : List Byte) : (s.presentRx m).tx = s.tx := rfl
@[simp] theorem presentRx_status (s : State) (m : List Byte) : (s.presentRx m).status = s.status := rfl
@[simp] theorem presentRx_frameValid (s : State) (m : List Byte) : (s.presentRx m).frameValid = s.frameValid := rfl
@[simp] theorem presentRx_frame (s : State) (m : List Byte) : (s.presentRx m).frame = s.frame := rfl
@[simp] theorem presentRx_shuf (s : State) (m : List Byte) : (s.presentRx m).shuf = s.shuf := rfl
@[simp] theorem presentRx_wordOut (s : State) (m : List Byte) : (s.presentRx m).wordOut = s.wordOut := rfl
@[simp] theorem presentRx_valid (s : State) (m : List Byte) : (s.presentRx m).valid = s.valid := rfl
@[simp] theorem presentRx_reading (s : State) (m : List Byte) : (s.presentRx m).reading = s.reading := rfl
@[simp] theorem presentRx_inputs (s : State) (m : List Byte) : (s.presentRx m).inputs = s.inputs := rfl

@[simp] theorem presentRequest_params (s : State) (a : Byte) (x q : Half) : (s.presentRequest a x q).params = s.params := rfl
@[simp] theorem presentRequest_start (s : State) (a : Byte) (x q : Half) : (s.presentRequest a x q).start = s.start := rfl
@[simp] theorem presentRequest_done (s : State) (a : Byte) (x q : Half) : (s.presentRequest a x q).done = s.done := rfl
@[simp] theorem presentRequest_op (s : State) (a : Byte) (x q : Half) : (s.presentRequest a x q).op = s.op := rfl
@[simp] theorem presentRequest_slave (s : State) (a : Byte) (x q : Half) : (s.presentRequest a x q).slave = Latch.holding a := rfl
@[simp] theorem presentRequest_startAddr (s : State) (a : Byte) (x q : Half) : (s.presentRequest a x q).startAddr = Latch.holding x := rfl
@[simp] theorem presentRequest_quantity (s : State) (a : Byte) (x q : Half) : (s.presentRequest a x q).quantity = Latch.holding q := rfl
@[simp] theorem presentRequest_rx (s : State) (a : Byte) (x q : Half) : (s.presentRequest a x q).rx = s.rx := rfl
@[simp] theorem presentRequest_rxLen (s : State) (a : Byte) (x q : Half) : (s.presentRequest a x q).rxLen = s.rxLen := rfl
@[simp] theorem presentRequest_raw (s : State) (a : Byte) (x q : Half) : (s.presentRequest a x q).raw = s.raw := rfl
@[simp] theorem presentRequest_wordIn (s : State) (a : Byte) (x q : Half) : (s.presentRequest a x q).wordIn = s.wordIn := rfl
@[simp] theorem presentRequest_laneRaw (s : State) (a : Byte) (x q : Half) : (s.presentRequest a x q).laneRaw = s.laneRaw := rfl
@[simp] theorem presentRequest_lanePresent (s : State) (a : Byte) (x q : Half) : (s.presentRequest a x q).lanePresent = s.lanePresent := rfl
@[simp] theorem presentRequest_crcAcc (s : State) (a : Byte) (x q : Half) : (s.presentRequest a x q).crcAcc = s.crcAcc := rfl
@[simp] theorem presentRequest_cursor (s : State) (a : Byte) (x q : Half) : (s.presentRequest a x q).cursor = s.cursor := rfl
@[simp] theorem presentRequest_crcOut (s : State) (a : Byte) (x q : Half) : (s.presentRequest a x q).crcOut = s.crcOut := rfl
@[simp] theorem presentRequest_tx (s : State) (a : Byte) (x q : Half) : (s.presentRequest a x q).tx = s.tx := rfl
@[simp] theorem presentRequest_status (s : State) (a : Byte) (x q : Half) : (s.presentRequest a x q).status = s.status := rfl
@[simp] theorem presentRequest_frameValid (s : State) (a : Byte) (x q : Half) : (s.presentRequest a x q).frameValid = s.frameValid := rfl
@[simp] theorem presentRequest_frame (s : State) (a : Byte) (x q : Half) : (s.presentRequest a x q).frame = s.frame := rfl
@[simp] theorem presentRequest_shuf (s : State) (a : Byte) (x q : Half) : (s.presentRequest a x q).shuf = s.shuf := rfl
@[simp] theorem presentRequest_wordOut (s : State) (a : Byte) (x q : Half) : (s.presentRequest a x q).wordOut = s.wordOut := rfl
@[simp] theorem presentRequest_valid (s : State) (a : Byte) (x q : Half) : (s.presentRequest a x q).valid = s.valid := rfl
@[simp] theorem presentRequest_reading (s : State) (a : Byte) (x q : Half) : (s.presentRequest a x q).reading = s.reading := rfl
@[simp] theorem presentRequest_inputs (s : State) (a : Byte) (x q : Half) : (s.presentRequest a x q).inputs = s.inputs := rfl

@[simp] theorem presentLane_params (s : State) (k : Fin 8) (q : Option Quad) : (s.presentLane k q).params = s.params := by cases q <;> rfl
@[simp] theorem presentLane_start (s : State) (k : Fin 8) (q : Option Quad) : (s.presentLane k q).start = s.start := by cases q <;> rfl
@[simp] theorem presentLane_done (s : State) (k : Fin 8) (q : Option Quad) : (s.presentLane k q).done = s.done := by cases q <;> rfl
@[simp] theorem presentLane_op (s : State) (k : Fin 8) (q : Option Quad) : (s.presentLane k q).op = s.op := by cases q <;> rfl
@[simp] theorem presentLane_slave (s : State) (k : Fin 8) (q : Option Quad) : (s.presentLane k q).slave = s.slave := by cases q <;> rfl
@[simp] theorem presentLane_startAddr (s : State) (k : Fin 8) (q : Option Quad) : (s.presentLane k q).startAddr = s.startAddr := by cases q <;> rfl
@[simp] theorem presentLane_quantity (s : State) (k : Fin 8) (q : Option Quad) : (s.presentLane k q).quantity = s.quantity := by cases q <;> rfl
@[simp] theorem presentLane_rx (s : State) (k : Fin 8) (q : Option Quad) : (s.presentLane k q).rx = s.rx := by cases q <;> rfl
@[simp] theorem presentLane_rxLen (s : State) (k : Fin 8) (q : Option Quad) : (s.presentLane k q).rxLen = s.rxLen := by cases q <;> rfl
@[simp] theorem presentLane_raw (s : State) (k : Fin 8) (q : Option Quad) : (s.presentLane k q).raw = s.raw := by cases q <;> rfl
@[simp] theorem presentLane_wordIn (s : State) (k : Fin 8) (q : Option Quad) : (s.presentLane k q).wordIn = s.wordIn := by cases q <;> rfl
@[simp] theorem presentLane_crcAcc (s : State) (k : Fin 8) (q : Option Quad) : (s.presentLane k q).crcAcc = s.crcAcc := by cases q <;> rfl
@[simp] theorem presentLane_cursor (s : State) (k : Fin 8) (q : Option Quad) : (s.presentLane k q).cursor = s.cursor := by cases q <;> rfl
@[simp] theorem presentLane_crcOut (s : State) (k : Fin 8) (q : Option Quad) : (s.presentLane k q).crcOut = s.crcOut := by cases q <;> rfl
@[simp] theorem presentLane_tx (s : State) (k : Fin 8) (q : Option Quad) : (s.presentLane k q).tx = s.tx := by cases q <;> rfl
@[simp] theorem presentLane_status (s : State) (k : Fin 8) (q : Option Quad) : (s.presentLane k q).status = s.status := by cases q <;> rfl
@[simp] theorem presentLane_frameValid (s : State) (k : Fin 8) (q : Option Quad) : (s.presentLane k q).frameValid = s.frameValid := by cases q <;> rfl
@[simp] theorem presentLane_frame (s : State) (k : Fin 8) (q : Option Quad) : (s.presentLane k q).frame = s.frame := by cases q <;> rfl
@[simp] theorem presentLane_shuf (s : State) (k : Fin 8) (q : Option Quad) : (s.presentLane k q).shuf = s.shuf := by cases q <;> rfl
@[simp] theorem presentLane_wordOut (s : State) (k : Fin 8) (q : Option Quad) : (s.presentLane k q).wordOut = s.wordOut := by cases q <;> rfl
@[simp] theorem presentLane_valid (s : State) (k : Fin 8) (q : Option Quad) : (s.presentLane k q).valid = s.valid := by cases q <;> rfl
@[simp] theorem presentLane_reading (s : State) (k : Fin 8) (q : Option Quad) : (s.presentLane k q).reading = s.reading := by cases q <;> rfl
@[simp] theorem presentLane_inputs (s : State) (k : Fin 8) (q : Option Quad) : (s.presentLane k q).inputs = s.inputs := by cases q <;> rfl

end Sys2Proof.Machine
end

