-- ==== Sys2Proof/Laws/Operands.lean ====
section
/-!
SUPPORT. What reading an operand can answer, once for each way of reading.
-/

namespace Sys2Proof.Machine

@[simp] theorem andThen_next {α β : Type} (a : α) (f : α → Res β) : andThen (.next a) f = f a := rfl

theorem andThen_eq_next {α β : Type} {r : Res α} {f : α → Res β} {b : β} :
    andThen r f = .next b ↔ ∃ a, r = .next a ∧ f a = .next b := by
  cases r <;> simp [andThen]

@[simp] theorem Latch.holding_held {α : Type} (v : α) : (Latch.holding v).held = true := rfl
@[simp] theorem Latch.holding_value {α : Type} (v : α) : (Latch.holding v).value = v := rfl

theorem Latch.eq_holding {α : Type} {l : Latch α} (h : l.held = true) : l = Latch.holding l.value := by
  cases l; cases h; rfl

theorem Latch.operand_eq_next {α : Type} {l : Latch α} {name : OperandLatch} {v : α} :
    l.operand name = .next v ↔ l = Latch.holding v := by
  obtain ⟨w, held⟩ := l
  cases held <;> simp [Latch.operand, Latch.holding]

@[simp] theorem Latch.operand_holding {α : Type} (v : α) (name : OperandLatch) :
    (Latch.holding v).operand name = .next v := Latch.operand_eq_next.mpr rfl

theorem State.rxLength_eq_next {s : State} {n : Nat} :
    s.rxLength = .next n ↔ s.rxLen = Latch.holding n ∧ n ≤ s.params.rxMax := by
  simp only [State.rxLength, andThen_eq_next, Latch.operand_eq_next]
  constructor
  · rintro ⟨a, h, h'⟩
    split_ifs at h' with hle
    cases h'
    exact ⟨h, hle⟩
  · rintro ⟨h, hle⟩
    exact ⟨n, h, by rw [if_pos hle]⟩

/-- A count over `RX_MAX` stops the read of `rx_len`. -/
theorem State.rxLength_over {s : State} {n : Nat} (h : s.rxLen = Latch.holding n) (hn : s.params.rxMax < n) :
    s.rxLength = .refused .rxOverCapacity := by
  rw [State.rxLength, h, Latch.operand_holding]
  exact if_neg (Nat.not_le.mpr hn)

theorem State.rxByte_eq_next {s : State} {i : Nat} {b : Byte} :
    s.rxByte i = .next b ↔ s.rx.read i = some b := by
  unfold State.rxByte
  cases s.rx.read i <;> simp

theorem State.rxBytes_eq_next {s : State} {a n : Nat} {m : List Byte} :
    s.rxBytes a n = .next m ↔ m.length = n ∧ ∀ i, i < n → s.rx.read (a + i) = m[i]? := by
  induction n generalizing a m with
  | zero =>
    cases m <;> simp [State.rxBytes]
  | succ n ih =>
    simp only [State.rxBytes, andThen_eq_next, State.rxByte_eq_next, ih]
    constructor
    · rintro ⟨b, hb, bs, ⟨hl, hbs⟩, h⟩
      cases h
      refine ⟨by simp [hl], fun i hi => ?_⟩
      cases i with
      | zero => simpa using hb
      | succ i => simpa [Nat.add_assoc, Nat.add_comm 1 i] using hbs i (by omega)
    · rintro ⟨hl, h⟩
      cases m with
      | nil => simp at hl
      | cons b bs =>
        refine ⟨b, by simpa using h 0 (by omega), bs, ⟨by simpa using hl, fun i hi => ?_⟩, rfl⟩
        simpa [Nat.add_assoc, Nat.add_comm 1 i] using h (i + 1) (by omega)

theorem State.rxLe16_eq_next {s : State} {i : Nat} {v : Half} :
    s.rxLe16 i = .next v ↔
      ∃ lo hi, s.rx.read i = some lo ∧ s.rx.read (i + 1) = some hi ∧ v = le16 lo hi := by
  simp only [State.rxLe16, andThen_eq_next, State.rxByte_eq_next]
  constructor
  · rintro ⟨lo, h1, hi, h2, h⟩
    cases h
    exact ⟨lo, hi, h1, h2, rfl⟩
  · rintro ⟨lo, hi, h1, h2, rfl⟩
    exact ⟨lo, h1, hi, h2, rfl⟩

theorem State.rxByte_missing {s : State} {i : Nat} (h : s.rx.read i = none) :
    s.rxByte i = .fault (.operandNoValue (.rx i)) := by
  simp [State.rxByte, h]

/-- Reading a run of bytes stops at the first that holds no value. -/
theorem State.rxBytes_missing {s : State} {a n i : Nat} (hi : i < n) (h : s.rx.read (a + i) = none)
    (hj : ∀ j, j < i → (s.rx.read (a + j)).isSome) :
    s.rxBytes a n = .fault (.operandNoValue (.rx (a + i))) := by
  induction i generalizing a n with
  | zero =>
    obtain ⟨n, rfl⟩ := Nat.exists_eq_succ_of_ne_zero (by omega : n ≠ 0)
    simp only [Nat.add_zero] at h ⊢
    rw [State.rxBytes, State.rxByte_missing h]
    rfl
  | succ i ih =>
    obtain ⟨n, rfl⟩ := Nat.exists_eq_succ_of_ne_zero (by omega : n ≠ 0)
    obtain ⟨b, hb⟩ : ∃ b, s.rx.read a = some b := Option.isSome_iff_exists.mp (hj 0 (by omega))
    have e : ∀ j, a + 1 + j = a + (j + 1) := fun j => by omega
    have hrest := ih (a := a + 1) (n := n) (by omega) (by rw [e]; exact h)
      (fun j hlt => by rw [e]; exact hj (j + 1) (by omega))
    rw [State.rxBytes, State.rxByte_eq_next.mpr hb, andThen_next, hrest, e]
    rfl

/-- Reading two bytes stops at the first that holds no value. -/
theorem State.rxLe16_missing {s : State} {i : Nat} :
    (s.rx.read i = none → s.rxLe16 i = .fault (.operandNoValue (.rx i))) ∧
    ((s.rx.read i).isSome → s.rx.read (i + 1) = none → s.rxLe16 i = .fault (.operandNoValue (.rx (i + 1)))) := by
  refine ⟨fun h => by rw [State.rxLe16, State.rxByte_missing h]; rfl, fun h h1 => ?_⟩
  obtain ⟨b, hb⟩ := Option.isSome_iff_exists.mp h
  rw [State.rxLe16, State.rxByte_eq_next.mpr hb, andThen_next, State.rxByte_missing h1]
  rfl

section
variable {s : State} {m : List Byte} (h : s.RxHolds m)
include h

theorem State.RxHolds.rxLength : s.rxLength = .next m.length :=
  State.rxLength_eq_next.mpr ⟨h.1, h.2.1⟩

theorem State.RxHolds.rxByte {i : Nat} {b : Byte} (hb : m[i]? = some b) : s.rxByte i = .next b := by
  have hi : i < m.length := (List.getElem?_eq_some_iff.mp hb).1
  exact State.rxByte_eq_next.mpr (by rw [h.2.2 i hi, hb])

theorem State.RxHolds.rxBytes {n : Nat} (hn : n ≤ m.length) : s.rxBytes 0 n = .next (m.take n) := by
  refine State.rxBytes_eq_next.mpr ⟨by simp [hn], fun i hi => ?_⟩
  rw [Nat.zero_add, h.2.2 i (by omega), List.getElem?_take_of_lt hi]

theorem State.RxHolds.rxLe16 {i : Nat} {lo hi : Byte} (h0 : m[i]? = some lo) (h1 : m[i + 1]? = some hi) :
    s.rxLe16 i = .next (le16 lo hi) := by
  have b0 := State.rxByte_eq_next.mp (h.rxByte h0)
  have b1 := State.rxByte_eq_next.mp (h.rxByte h1)
  exact State.rxLe16_eq_next.mpr ⟨lo, hi, b0, b1, rfl⟩

end

/-- The message in `RX` is determined. -/
theorem State.RxHolds.unique {s : State} {m m' : List Byte} (h : s.RxHolds m) (h' : s.RxHolds m') : m = m' := by
  have hl : m.length = m'.length := by
    have := h.1.symm.trans h'.1
    simpa [Latch.holding] using this
  apply List.ext_getElem? fun i => ?_
  rcases Nat.lt_or_ge i m.length with hi | hi
  · rw [← h.2.2 i hi, h'.2.2 i (by omega)]
  · rw [List.getElem?_eq_none hi, List.getElem?_eq_none (by omega)]

/-- Presented bytes are the message in `RX`. -/
theorem State.presentRx_holds (s : State) {m : List Byte} (h : m.length ≤ s.params.rxMax) :
    (s.presentRx m).RxHolds m := ⟨by simp, by simpa using h, fun i _ => by simp⟩

theorem mem_laneNumbers : ∀ k : Fin 8, k ∈ laneNumbers := by decide

theorem missingLane_eq_none {s : State} {present : BitVec 8} :
    s.missingLane present = none ↔
      ∀ k : Fin 8, present.getLsbD k.val = true → (s.laneRaw.get k).held = true := by
  simp only [State.missingLane, List.find?_eq_none]
  constructor
  · intro h k hk
    have hm : k ∈ laneNumbers := mem_laneNumbers k
    have := h k hm
    simp_all
  · intro h k _
    cases hp : present.getLsbD k.val
    · simp
    · simp [h k hp]

end Sys2Proof.Machine
end

