-- ==== Sys2Proof/Laws/Operations.lean ====
section
/-!
SUPPORT. What each operation can answer: one lemma for each shared operation, which proofs cite instead of unfolding it.
-/

namespace Sys2Proof.Machine

/-- CRC16 answers a next state exactly when `RX` holds a message, and it is this one. -/
theorem execCrc16_next {s t : State} : execCrc16 s = .next t ↔ ∃ m, s.RxHolds m ∧
    t = ({ s.ranCrc (crc16 m) m.length with crcOut := Latch.holding (crc16 m) } : State).finish := by
  simp only [execCrc16, andThen_eq_next, State.rxLength_eq_next, State.rxBytes_eq_next]
  constructor
  · rintro ⟨n, ⟨h1, h2⟩, m, ⟨rfl, h3⟩, h⟩
    cases h
    exact ⟨m, ⟨h1, h2, by simpa using h3⟩, rfl⟩
  · rintro ⟨m, ⟨h1, h2, h3⟩, rfl⟩
    exact ⟨_, ⟨h1, h2⟩, m, ⟨rfl, by simpa using h3⟩, rfl⟩

/-- BUILD answers a next state exactly when its three operands hold values. -/
theorem runBuild_next {s t : State} : s.runBuild = .next t ↔ ∃ a x q, s.slave = Latch.holding a ∧
    s.startAddr = Latch.holding x ∧ s.quantity = Latch.holding q ∧
    t = ({ s.ranCrc (crc16 (requestBody a x q)) 6 with
           tx := Memory.ofBytes (requestBytes a x q) } : State).finish := by
  simp only [State.runBuild, andThen_eq_next, Latch.operand_eq_next]
  constructor
  · rintro ⟨a, ha, x, hx, q, hq, h⟩
    cases h
    exact ⟨a, x, q, ha, hx, hq, rfl⟩
  · rintro ⟨a, x, q, ha, hx, hq, rfl⟩
    exact ⟨a, ha, x, hx, q, hq, rfl⟩

/-- F32SWAP answers a next state exactly when `raw` holds a value. -/
theorem execF32swap_next {s t : State} : execF32swap s = .next t ↔ ∃ r, s.raw = Latch.holding r ∧
    t = ({ s with shuf := Latch.holding (shuffle r), wordOut := Latch.holding (swapWord r) } : State).finish := by
  simp only [execF32swap, andThen_eq_next, Latch.operand_eq_next, Host.Outcome.next.injEq, eq_comm (b := t)]

/-- ISVALID answers a next state exactly when `word_in` holds a value. -/
theorem execIsvalid_next {s t : State} : execIsvalid s = .next t ↔ ∃ w, s.wordIn = Latch.holding w ∧
    t = ({ s with valid := Latch.holding (isValidPattern w) } : State).finish := by
  simp only [execIsvalid, andThen_eq_next, Latch.operand_eq_next, Host.Outcome.next.injEq, eq_comm (b := t)]

/-- DECODE answers a next state exactly when `lane_present` holds a value and so does each present lane. -/
theorem execDecode_next {s t : State} : execDecode s = .next t ↔ ∃ p, s.lanePresent = Latch.holding p ∧
    (∀ k : Fin 8, p.getLsbD k.val = true → (s.laneRaw.get k).held = true) ∧
    t = ({ s with reading := Lanes.build fun k => Latch.holding (s.laneWord p k) } : State).finish := by
  simp only [execDecode, andThen_eq_next, Latch.operand_eq_next, ← missingLane_eq_none]
  constructor
  · rintro ⟨p, hp, h⟩
    cases hm : s.missingLane p with
    | none =>
      simp only [hm] at h
      cases h
      exact ⟨p, hp, hm, rfl⟩
    | some k => simp [hm] at h
  · rintro ⟨p, hp, hm, rfl⟩
    exact ⟨p, hp, by simp [hm]⟩

/-- The end of either branch of PARSE: the CRC is read at `crcPosition`, the covered bytes are `RX[0..k)`, and the outcome
is `good` or `bad` with the Frame of R14. -/
theorem checkFrame_next {s t : State} {n k p : Nat} {a f : Byte} {good bad : Status} :
    s.checkFrame n k p a f good bad = .next t ↔
      ¬(s.params.trailingPolicy = .refuse ∧ k + crcLen < n) ∧
      ∃ received covered,
        s.rxLe16 (crcPosition s.params.trailingPolicy n k) = .next received ∧
        s.rxBytes 0 k = .next covered ∧
        t = ((s.ranCrc (crc16 covered) k).report (if crc16 covered = received then good else bad)
          (if (if crc16 covered = received then good else bad).givesFrame then
            some ⟨a, f, Memory.ofBytes (covered.drop p), (covered.drop p).length, received⟩ else none)).finish := by
  unfold State.checkFrame
  split_ifs with hr
  · simp [hr]
  · simp only [andThen_eq_next, hr, not_false_eq_true, true_and]
    constructor
    · rintro ⟨received, h1, covered, h2, h⟩
      cases h
      exact ⟨received, covered, h1, h2, rfl⟩
    · rintro ⟨received, covered, h1, h2, rfl⟩
      exact ⟨received, h1, covered, h2, rfl⟩

/-- Everything PARSE can do: too short at once; or a header, and then the exception branch, a normal response cut short, or
the normal branch. -/
theorem runParse_next {s t : State} : s.runParse = .next t ↔ ∃ n, s.rxLength = .next n ∧
    ((n < respMin ∧ t = (s.report .frameTooShort none).finish) ∨
     (respMin ≤ n ∧ ∃ a f, s.rxByte 0 = .next a ∧ s.rxByte 1 = .next f ∧
       ((f.getLsbD 7 = true ∧ s.checkFrame n 3 2 a f .protocolException
            (badExceptionStatus s.params.excBadCrc) = .next t) ∨
        (f.getLsbD 7 = false ∧ ∃ c, s.rxByte 2 = .next c ∧
          ((n < hdrLen + c.toNat + crcLen ∧ t = (s.report .frameTooShort none).finish) ∨
           (hdrLen + c.toNat + crcLen ≤ n ∧
             s.checkFrame n (hdrLen + c.toNat) hdrLen a f .ok .crcMismatch = .next t)))))) := by
  simp only [State.runParse, andThen_eq_next]
  refine exists_congr fun n => and_congr_right fun _ => ?_
  by_cases hn : n < respMin
  · simp [hn, eq_comm (b := t), Nat.not_le.mpr hn]
  · simp only [hn, if_false, andThen_eq_next, false_and, false_or, Nat.not_lt.mp hn, true_and]
    constructor
    · rintro ⟨a, ha, f, hf, h⟩
      refine ⟨a, f, ha, hf, ?_⟩
      by_cases h7 : f.getLsbD 7 = true
      · rw [if_pos h7] at h; exact .inl ⟨h7, h⟩
      · rw [if_neg h7, andThen_eq_next] at h
        obtain ⟨c, hc, h⟩ := h
        refine .inr ⟨by simpa using h7, c, hc, ?_⟩
        split_ifs at h with hs
        · cases h; exact .inl ⟨hs, rfl⟩
        · exact .inr ⟨Nat.not_lt.mp hs, h⟩
    · rintro ⟨a, f, ha, hf, h⟩
      refine ⟨a, ha, f, hf, ?_⟩
      rcases h with ⟨h7, h⟩ | ⟨h7, c, hc, h⟩
      · rw [if_pos h7]; exact h
      · rw [if_neg (by rw [h7]; decide), andThen_eq_next]
        refine ⟨c, hc, ?_⟩
        rcases h with ⟨hs, rfl⟩ | ⟨hs, h⟩
        · rw [if_pos hs]
        · rw [if_neg (Nat.not_lt.mpr hs)]; exact h

/-- What a Frame PARSE delivers looks like (R14, R16). -/
def GoodFrame (o : Status) (g : Frame) : Prop :=
  (∃ payload : List Byte, g.data = Memory.ofBytes payload ∧ g.dataLen = payload.length ∧ payload.length ≤ 255) ∧
    g.function.getLsbD 7 = decide (o = .protocolException)

/-- The shape of every outcome of PARSE: one report, after at most one CRC computation, with a Frame exactly when R14 gives
one. -/
theorem runParse_reports {s t : State} (h : s.runParse = .next t) : ∃ s1 o f, t = (s1.report o f).finish ∧
    (s1 = s ∨ ∃ acc k, s1 = s.ranCrc acc k) ∧ f.isSome = o.givesFrame ∧ ∀ g, f = some g → GoodFrame o g := by
  obtain ⟨n, -, h⟩ := runParse_next.mp h
  rcases h with ⟨-, rfl⟩ | ⟨-, a, f, -, -, h⟩
  · exact ⟨s, _, none, rfl, .inl rfl, rfl, by simp⟩
  rcases h with ⟨h7, h⟩ | ⟨h7, c, -, h⟩
  · obtain ⟨-, received, covered, -, hc, rfl⟩ := checkFrame_next.mp h
    refine ⟨_, _, _, rfl, .inr ⟨_, _, rfl⟩, by split_ifs <;> simp_all, fun g hg => ?_⟩
    have hlen := (State.rxBytes_eq_next.mp hc).1
    split_ifs at hg with h1 h2
    · cases hg
      refine ⟨⟨covered.drop 2, rfl, rfl, by simp [hlen]⟩, ?_⟩
      simpa [h1] using h7
    · rename_i h2
      cases hg
      refine ⟨⟨covered.drop 2, rfl, rfl, by simp [hlen]⟩, ?_⟩
      have hb : badExceptionStatus s.params.excBadCrc = .protocolException := by
        cases he : s.params.excBadCrc
        · simp [he, badExceptionStatus, Status.givesFrame] at h2
        · rfl
      simpa [h1, hb] using h7
  · rcases h with ⟨-, rfl⟩ | ⟨-, h⟩
    · exact ⟨s, _, none, rfl, .inl rfl, rfl, by simp⟩
    obtain ⟨-, received, covered, -, hc, rfl⟩ := checkFrame_next.mp h
    refine ⟨_, _, _, rfl, .inr ⟨_, _, rfl⟩, by split_ifs <;> simp_all, fun g hg => ?_⟩
    have hlen := (State.rxBytes_eq_next.mp hc).1
    have hb := c.isLt
    split_ifs at hg with h1 h2
    · cases hg
      refine ⟨⟨covered.drop hdrLen, rfl, rfl, by simp [hlen, hdrLen]; omega⟩, ?_⟩
      simpa [h1] using h7
    · exact absurd ‹Status.crcMismatch.givesFrame = true› (by decide)

end Sys2Proof.Machine
end

