-- ==== Sys2Proof/Laws/HostPort.lean ====
section
/-!
SUPPORT. What a step can do: the host's actions, the handshake, and the cases of one step.
-/

namespace Sys2Proof.Machine

theorem hostWrites_next {s w t : State} {l : OperandLatch} :
    s.hostWrites l w = .next t ↔ s.inHand l = false ∧ t = w := by
  unfold State.hostWrites
  cases s.inHand l <;> simp [eq_comm]

theorem hostReads_next {s t : State} {l : ResultLatch} :
    s.hostReads l = .next t ↔ s.holdsResult l = true ∧ s.done = true ∧ t = s := by
  unfold State.hostReads
  cases s.holdsResult l <;> cases s.done <;> simp [eq_comm]

theorem hostSlices_next {s t : State} {ks : List (Fin 8)} :
    s.hostSlices ks = .next t ↔
      s.inHand .lanePresent = false ∧ s.done = true ∧ t = s.presentSlices s.acceptedPayload ks := by
  unfold State.hostSlices
  cases s.inHand .lanePresent <;> cases s.done <;> simp [eq_comm]

theorem hostStarts_next {s t : State} :
    s.hostStarts = .next t ↔ s.start = false ∧ t = { s with start := true, done := false } := by
  unfold State.hostStarts
  split_ifs with h
  · simp [h]
  · simp [h, eq_comm]

theorem hostTransacts_next {s t : State} {c : Code} :
    s.hostTransacts c = .next t ↔ s.start = false ∧ ∃ i, decode c = .ok i ∧ exec i (s.presentCode c) = .next t := by
  unfold State.hostTransacts
  split_ifs with h
  · simp [h]
  · cases decode c <;> simp [h]

theorem runStarted_next {s t : State} :
    s.runStarted = .next t ↔ ∃ bits, s.op = Latch.holding bits ∧ exec (decodeOp bits) s = .next t := by
  simp only [State.runStarted, andThen_eq_next, Latch.operand_eq_next]

/-- The cases of one step. -/
theorem step_cases {s t : State} (h : step s = .next t) :
    (s.start = false ∧ s.inputs = [] ∧ t = s) ∨
    (s.start = false ∧ ∃ rest, s.inputs = .wait :: rest ∧ t = { s with inputs := rest }) ∨
    (s.start = true ∧ s.runStarted = .next t) ∨
    ∃ a rest, s.inputs = a :: rest ∧ a ≠ .wait ∧ State.drive { s with inputs := rest } a = .next t := by
  simp only [step, State.advance] at h
  split at h
  · rename_i hi
    split_ifs at h with hs
    · exact .inr (.inr (.inl ⟨hs, h⟩))
    · cases h; exact .inl ⟨by simpa using hs, hi, rfl⟩
  · rename_i rest hi
    split_ifs at h with hs
    · exact .inr (.inr (.inl ⟨hs, h⟩))
    · cases h; exact .inr (.inl ⟨by simpa using hs, rest, hi, rfl⟩)
  · rename_i a rest hw hi
    exact .inr (.inr (.inr ⟨a, rest, hi, fun e => hw e, h⟩))

/-- A host action other than waiting is carried out as it is. -/
theorem step_act {s : State} {a : HostAct} {rest : List HostAct} (h : s.inputs = a :: rest) (ha : a ≠ .wait) :
    step s = State.drive { s with inputs := rest } a := by
  simp only [step, State.advance]
  split
  · rename_i hi; rw [hi] at h; cases h
  · rename_i r hi; rw [hi] at h; cases h; exact absurd rfl ha
  · rename_i b r hw hi
    rw [hi] at h; cases h; rfl

/-- With `start` asserted and the host waiting, the step runs the operation in hand. -/
theorem step_started {s : State} (hs : s.start = true) (h : s.inputs = [] ∨ ∃ rest, s.inputs = .wait :: rest) :
    step s = s.runStarted := by
  simp only [step, State.advance]
  rcases h with h | ⟨rest, h⟩ <;> simp [h, hs]

/-- A write of operand latches: nothing else changes, and `RX` stays canonical and inside its capacity. -/
def OperandWrite (s t : State) : Prop :=
  t.params = s.params ∧ t.start = s.start ∧ t.done = s.done ∧ t.inputs = s.inputs ∧ t.crcAcc = s.crcAcc ∧
    t.cursor = s.cursor ∧ t.crcOut = s.crcOut ∧ t.tx = s.tx ∧ t.status = s.status ∧ t.frameValid = s.frameValid ∧
    t.frame = s.frame ∧ t.shuf = s.shuf ∧ t.wordOut = s.wordOut ∧ t.valid = s.valid ∧ t.reading = s.reading ∧
    (s.rx.wf → t.rx.wf) ∧ (s.rx.within s.params.rxMax → t.rx.within s.params.rxMax) ∧
    (s.rxLen.value ≤ s.params.rxMax → t.rxLen.value ≤ s.params.rxMax)

theorem presentLane_write (s : State) (k : Fin 8) (q : Option Quad) : OperandWrite s (s.presentLane k q) := by
  simp [OperandWrite]

theorem presentSlices_write (s : State) (payload : List Byte) (ks : List (Fin 8)) :
    OperandWrite s (s.presentSlices payload ks) := by
  induction ks generalizing s with
  | nil => simp [OperandWrite, State.presentSlices]
  | cons k ks ih =>
    have := ih (s.presentLane k (slice payload (laneOffset k)))
    simpa [OperandWrite, State.presentSlices] using this

theorem presentRx_write (s : State) {m : List Byte} (h : m.length ≤ s.params.rxMax) :
    OperandWrite s (s.presentRx m) := by
  have hw : (Memory.ofBytes m).within s.params.rxMax := Memory.ofBytes_within h
  refine ⟨rfl, rfl, rfl, rfl, rfl, rfl, rfl, rfl, rfl, rfl, rfl, rfl, rfl, rfl, rfl, fun _ => Memory.ofBytes_wf m,
    fun _ => hw, fun _ => h⟩

/-- What a host action can do when it answers a next state. -/
theorem drive_cases {s t : State} {a : HostAct} (h : s.drive a = .next t) :
    OperandWrite s t ∨
    (a = .start ∧ s.start = false ∧ t = { s with start := true, done := false }) ∨
    ((a = .wait ∨ ∃ l, a = .read l) ∧ t = s) ∨
    (a = .reset ∧ t = s.resetBlock) ∨
    ∃ c i, a = .transact c ∧ s.start = false ∧ decode c = .ok i ∧ exec i (s.presentCode c) = .next t := by
  have simple : ∀ l w, OperandWrite s w → s.hostWrites l w = .next t → OperandWrite s t := by
    intro l w hw h
    obtain ⟨-, rfl⟩ := hostWrites_next.mp h
    exact hw
  cases a with
  | setOp v => exact .inl (simple _ _ (by simp [OperandWrite]) h)
  | setSlave v => exact .inl (simple _ _ (by simp [OperandWrite]) h)
  | setStartAddr v => exact .inl (simple _ _ (by simp [OperandWrite]) h)
  | setQuantity v => exact .inl (simple _ _ (by simp [OperandWrite]) h)
  | setRxByte i b =>
    simp only [State.drive] at h
    split_ifs at h with hi
    refine .inl (simple _ _ ?_ h)
    exact ⟨rfl, rfl, rfl, rfl, rfl, rfl, rfl, rfl, rfl, rfl, rfl, rfl, rfl, rfl, rfl, fun hw => Memory.write_wf hw i b,
      fun hw => Memory.write_within hw hi b, id⟩
  | setRxLen n =>
    simp only [State.drive] at h
    split_ifs at h with hn
    exact .inl (simple _ _ (by simp [OperandWrite, hn]) h)
  | exchange m =>
    simp only [State.drive] at h
    split_ifs at h with hm
    exact .inl (simple _ _ (presentRx_write s hm) h)
  | setRaw q => exact .inl (simple _ _ (by simp [OperandWrite]) h)
  | setWordIn w => exact .inl (simple _ _ (by simp [OperandWrite]) h)
  | setLane k q => exact .inl (simple _ _ (presentLane_write s k _) h)
  | dropLane k => exact .inl (simple _ _ (presentLane_write s k _) h)
  | setLanePresent v => exact .inl (simple _ _ (by simp [OperandWrite]) h)
  | lanesElec =>
    obtain ⟨-, -, rfl⟩ := hostSlices_next.mp h
    exact .inl (presentSlices_write s _ _)
  | lanesEnergy =>
    obtain ⟨-, -, rfl⟩ := hostSlices_next.mp h
    exact .inl (presentSlices_write s _ _)
  | start =>
    obtain ⟨h1, h2⟩ := hostStarts_next.mp h
    exact .inr (.inl ⟨rfl, h1, h2⟩)
  | wait => cases h; exact .inr (.inr (.inl ⟨.inl rfl, rfl⟩))
  | read l => exact .inr (.inr (.inl ⟨.inr ⟨l, rfl⟩, (hostReads_next.mp h).2.2⟩))
  | reset => cases h; exact .inr (.inr (.inr (.inl ⟨rfl, rfl⟩)))
  | transact c =>
    obtain ⟨h1, i, h2, h3⟩ := hostTransacts_next.mp h
    exact .inr (.inr (.inr (.inr ⟨c, i, rfl, h1, h2, h3⟩)))

end Sys2Proof.Machine
end

