-- ==== Sys2Proof/Laws/Lanes.lean ====
section
/-!
SUPPORT. What presenting lanes leaves: one lane, then a list of lanes sliced from a payload (R18, R61, R116).
-/

namespace Sys2Proof

theorem Lanes.get_put {α : Type} (l : Lanes α) (k j : Fin 8) (a : α) :
    (l.put k a).get j = if j = k then a else l.get j := by
  fin_cases k <;> fin_cases j <;> rfl

theorem Lanes.get_build {α : Type} (f : Fin 8 → α) (k : Fin 8) : (Lanes.build f).get k = f k := by
  fin_cases k <;> rfl

end Sys2Proof

namespace Sys2Proof.Machine

theorem OperandLatch.Same.refl (l : OperandLatch) (s : State) : l.Same s s := by
  cases l <;> rfl

theorem OperandLatch.Same.trans {l : OperandLatch} {s t u : State} (h : l.Same s t) (h' : l.Same t u) : l.Same s u := by
  cases l <;> exact Eq.trans h h'

/-- The present bits after one is set. -/
theorem present_set (v : BitVec 8) (k j : Fin 8) :
    (v ||| (1#8 <<< k.val)).getLsbD j.val = if j = k then true else v.getLsbD j.val := by
  fin_cases k <;> fin_cases j <;> simp

/-- The present bits after one is cleared. -/
theorem present_clear (v : BitVec 8) (k j : Fin 8) :
    (v &&& ~~~(1#8 <<< k.val)).getLsbD j.val = if j = k then false else v.getLsbD j.val := by
  fin_cases k <;> fin_cases j <;> simp

/-- What presenting one lane, or dropping it, leaves of every lane. -/
theorem presentLane_lane (s : State) (k j : Fin 8) (q : Option Quad) :
    (s.presentLane k q).lanePresent.held = true ∧
    (s.presentLane k q).lanePresent.value.getLsbD j.val =
      (if j = k then q.isSome else s.lanePresent.value.getLsbD j.val) ∧
    (s.presentLane k q).laneRaw.get j =
      (if j = k then (q.map Latch.holding).getD (s.laneRaw.get j) else s.laneRaw.get j) := by
  cases q with
  | none => exact ⟨rfl, present_clear _ _ _, by simp [State.presentLane]⟩
  | some q => exact ⟨rfl, present_set _ _ _, Lanes.get_put _ _ _ _⟩

/-- Presenting one lane leaves every operand latch but `lane_present` and the lane's bytes. -/
theorem presentLane_other (s : State) (k : Fin 8) (q : Option Quad) {l : OperandLatch} (hp : l ≠ .lanePresent)
    (hk : l ≠ .laneRaw k) : l.Same s (s.presentLane k q) := by
  cases l with
  | lanePresent => exact absurd rfl hp
  | laneRaw j =>
    have hj : j ≠ k := fun h => hk (by rw [h])
    have hraw := (presentLane_lane s k j q).2.2
    rw [if_neg hj] at hraw
    exact hraw.symm
  | _ => simp [OperandLatch.Same]

/-- A slice is there exactly when its four bytes lie inside the payload, and is these. -/
theorem slice_cases (payload : List Byte) (o : Nat) :
    (o + 4 ≤ payload.length → ∃ q : Quad, slice payload o = some q ∧
      [q.b0, q.b1, q.b2, q.b3] = (payload.drop o).take 4) ∧
    (payload.length < o + 4 → slice payload o = none) := by
  have hl : (payload.drop o).length = payload.length - o := List.length_drop ..
  unfold slice
  generalize payload.drop o = d at hl
  match d with
  | b0 :: b1 :: b2 :: b3 :: r => exact ⟨fun _ => ⟨_, rfl, rfl⟩, fun h => by simp at hl; omega⟩
  | [] => exact ⟨fun h => by simp at hl; omega, fun _ => rfl⟩
  | [_] => exact ⟨fun h => by simp at hl; omega, fun _ => rfl⟩
  | [_, _] => exact ⟨fun h => by simp at hl; omega, fun _ => rfl⟩
  | [_, _, _] => exact ⟨fun h => by simp at hl; omega, fun _ => rfl⟩

/-- What presenting slices of a payload leaves of every lane. -/
theorem presentSlices_lane (s : State) (payload : List Byte) {ks : List (Fin 8)} (hn : ks.Nodup) (j : Fin 8) :
    (ks ≠ [] ∨ s.lanePresent.held = true → (s.presentSlices payload ks).lanePresent.held = true) ∧
    (s.presentSlices payload ks).lanePresent.value.getLsbD j.val =
      (if j ∈ ks then (slice payload (laneOffset j)).isSome else s.lanePresent.value.getLsbD j.val) ∧
    (s.presentSlices payload ks).laneRaw.get j =
      (if j ∈ ks then ((slice payload (laneOffset j)).map Latch.holding).getD (s.laneRaw.get j)
       else s.laneRaw.get j) := by
  induction ks generalizing s with
  | nil => simp [State.presentSlices]
  | cons k ks ih =>
    obtain ⟨hk, hn⟩ := List.nodup_cons.mp hn
    obtain ⟨held, bit, raw⟩ := ih (s.presentLane k (slice payload (laneOffset k))) hn
    obtain ⟨held1, bit1, raw1⟩ := presentLane_lane s k j (slice payload (laneOffset k))
    rw [bit1] at bit
    rw [raw1] at raw
    refine ⟨fun _ => held (.inr held1), bit.trans ?_, raw.trans ?_⟩
    all_goals
      by_cases hj : j = k
      · subst hj; simp [hk]
      · by_cases hm : j ∈ ks <;> simp [hj, hm]

/-- Presenting slices leaves every operand latch but `lane_present` and the bytes of these lanes. -/
theorem presentSlices_other (s : State) (payload : List Byte) {ks : List (Fin 8)} {l : OperandLatch}
    (hp : l ≠ .lanePresent) (hk : ∀ k ∈ ks, l ≠ .laneRaw k) : l.Same s (s.presentSlices payload ks) := by
  induction ks generalizing s with
  | nil => exact OperandLatch.Same.refl l s
  | cons k ks ih =>
    exact (presentLane_other s k _ hp (hk k (by simp))).trans (ih _ fun j hj => hk j (by simp [hj]))

end Sys2Proof.Machine
end

