-- ==== Sys2Proof/Laws/PerInstr.lean ====
section
/-!
SUPPORT. R50: the lengths of the three frame formats, for every instruction as syntax: a request is 8 bytes, an exception
response 5, a normal response 5 + byteCount, which is at most 260 when it is well formed.
-/

namespace Sys2Proof.Laws.FrameLength

open Sys2Proof

/-- R50: the length of the frame a wire instruction is issued as. -/
def Statement (i : Instr) : Prop :=
  match i with
  | .req _ _ _ _ => ∃ bytes, encode i = .request bytes ∧ bytes.length = 8
  | .rsp _ _ data _ => i.wf = true → ∃ bytes, encode i = .response bytes ∧
      bytes[2]? = some (BitVec.ofNat 8 data.length) ∧ (BitVec.ofNat 8 data.length).toNat = data.length ∧
      bytes.length = 5 + data.length ∧ bytes.length ≤ 260
  | .exc _ _ _ _ => ∃ bytes, encode i = .response bytes ∧ bytes.length = 5
  | .crc16 => True
  | .build => True
  | .parse => True
  | .f32swap => True
  | .isvalid => True
  | .decode => True
  | .reserved6 => True
  | .reserved7 => True
  | .crcInit => True
  | .crcByte _ => True
  | .crcBit => True

theorem crc16 : Statement .crc16 := trivial
theorem build : Statement .build := trivial
theorem parse : Statement .parse := trivial
theorem f32swap : Statement .f32swap := trivial
theorem isvalid : Statement .isvalid := trivial
theorem decode : Statement .decode := trivial
theorem reserved6 : Statement .reserved6 := trivial
theorem reserved7 : Statement .reserved7 := trivial
theorem crcInit : Statement .crcInit := trivial
theorem crcByte (b : Byte) : Statement (.crcByte b) := trivial
theorem crcBit : Statement .crcBit := trivial

theorem req (slave : Byte) (startAddr quantity crc : Half) : Statement (.req slave startAddr quantity crc) :=
  ⟨_, rfl, rfl⟩

theorem rsp (slave function : Byte) (data : List Byte) (crc : Half) :
    Statement (.rsp slave function data crc) := by
  intro h
  have hl : data.length ≤ 255 := by simp [Instr.wf] at h; exact h.2
  refine ⟨_, rfl, rfl, ?_, ?_, ?_⟩
  · rw [BitVec.toNat_ofNat]; omega
  · simp [responseBytes, crcBytes]; omega
  · simp [responseBytes, crcBytes]; omega

theorem exc (slave function excCode : Byte) (crc : Half) : Statement (.exc slave function excCode crc) :=
  ⟨_, rfl, rfl⟩

end Sys2Proof.Laws.FrameLength
end

