-- ==== Sys2Proof/Tests/Slice0.lean ====
section
/-!
SUPPORT. The model's own tests. Expected values are those of spec/95_test_vectors.md (V, E, P numbers) and of the tables of
the rules; then one witness for the hypotheses of every statement that has some.
-/

namespace Sys2Proof.Tests

open Sys2Proof Sys2Proof.Machine

/-! ## States for the tests -/

/-- A test of the next state of a part of a step. -/
def after {α : Type} (r : Res α) (p : α → Bool) : Bool :=
  match r with
  | .next t => p t
  | .fault _ => false
  | .refused _ => false

theorem exists_of_after {α : Type} {r : Res α} {p : α → Bool} (h : after r p = true) :
    ∃ t, r = .next t ∧ p t = true := by
  cases r with
  | next t => exact ⟨t, rfl, h⟩
  | fault e => cases h
  | refused e => cases h

/-- Whether a step is refused for this reason. -/
def refuses {α : Type} (r : Res α) (f : Refusal) : Bool :=
  match r with
  | .next _ => false
  | .fault _ => false
  | .refused e => e == f

/-- A message in `RX`. -/
def withRx (m : List Byte) : State := State.reset.presentRx m

/-- A message in `RX`, under a trailing policy. -/
def withPolicy (p : TrailingPolicy) (m : List Byte) : State :=
  { withRx m with params := { Config.default with trailingPolicy := p } }

/-- A message in `RX`, with the other value of `EXC_BAD_CRC`. -/
def withExcBadCrc (m : List Byte) : State :=
  { withRx m with params := { Config.default with excBadCrc := .protocolException } }

/-- The operands of BUILD. -/
def withRequest (slave : Byte) (startAddr quantity : Half) : State :=
  State.reset.presentRequest slave startAddr quantity

/-- The operand of F32SWAP. -/
def withRaw (q : Quad) : State := { State.reset with raw := Latch.holding q }

/-- The operand of ISVALID. -/
def withWord (w : Word) : State := { State.reset with wordIn := Latch.holding w }

/-- One present lane. -/
def withLane (k : Fin 8) (q : Quad) : State := State.reset.presentLane k (some q)

/-- An accumulator value. -/
def withAcc (a : Half) : State := { State.reset with crcAcc := a }

/-- The operation in hand. -/
def started (s : State) (bits : BitVec 3) : State := { s.presentOp bits with start := true }

/-- A message in `RX` with one byte that holds no value. -/
def missing (i : Nat) (m : List Byte) : State :=
  { withRx m with rx := (withRx m).rx.filter fun x => x.1 != i }

/-- What the host does next. -/
def doing (s : State) (acts : List HostAct) : State := { s with inputs := acts }

/-- An accepted payload in the Frame latches. -/
def withPayload (payload : List Byte) : State :=
  State.reset.report .ok (some ⟨0x01, 0x03, Memory.ofBytes payload, payload.length, 0⟩)

/-- Every operand of every operation: the answer of V46, the request of V20, and lane 3. -/
def ready : State :=
  { ((withLane 3 ⟨0x7F, 0xC0, 0x00, 0x00⟩).presentRx
      [0x01, 0x03, 0x04, 0x43, 0x5C, 0x80, 0x00, 0x4E, 0x65]).presentRequest 0x01 0x2000 16 with
    raw := Latch.holding ⟨0x43, 0x5C, 0x80, 0x00⟩
    wordIn := Latch.holding 0x435C8000 }

/-! ## Well-formedness -/

/-- R52: bit 7 of a normal response's function is 0. -/
theorem test_wf_rsp_function : (Instr.rsp 0x01 0x83 [0x02] 0xF1C0).wf = false := by decide
/-- R52: byteCount is one byte. -/
theorem test_wf_rsp_length : (Instr.rsp 0x01 0x03 (List.replicate 256 0) 0).wf = false := by decide +kernel
/-- R53: bit 7 of an exception response's function is 1. -/
theorem test_wf_exc_function : (Instr.exc 0x01 0x03 0x02 0xF1C0).wf = false := by decide

/-! ## Decoding, from words written out from the formats -/

/-- R58: `op` = 3, binary 011. -/
theorem test_decode_op : decode (.op 0b011#3) = .ok .f32swap := rfl
/-- R58: the eight selects. -/
theorem test_decode_ops : (List.map decodeOp [0, 1, 2, 3, 4, 5, 6, 7]) =
    [.crc16, .build, .parse, .f32swap, .isvalid, .decode, .reserved6, .reserved7] := by decide
/-- R71 to R73: the micro-steps have no word; they stand for themselves. -/
theorem test_decode_micro : decode .crcInit = .ok .crcInit ∧ decode (.crcByte 0x83) = .ok (.crcByte 0x83) ∧
    decode .crcBit = .ok .crcBit := ⟨rfl, rfl, rfl⟩
/-- R51, V23: bit by bit, slave 2, address 0x200E, quantity 2. -/
theorem test_decode_request : decode (.request [0b00000010, 0b00000011, 0b00100000, 0b00001110,
    0b00000000, 0b00000010, 0b10101110, 0b00111011]) = .ok (.req 0x02 0x200E 2 0x3BAE) := by decide +kernel
/-- R52, V51: function 0x04, two data bytes. -/
theorem test_decode_response : decode (.response [0b00000001, 0b00000100, 0b00000010, 0b00010010, 0b00110100,
    0b10110100, 0b01000111]) = .ok (.rsp 0x01 0x04 [0x12, 0x34] 0x47B4) := by rfl
/-- R53, V52. -/
theorem test_decode_exception : decode (.response [0b00000001, 0b10000011, 0b00000010, 0b11000000, 0b11110001]) =
    .ok (.exc 0x01 0x83 0x02 0xF1C0) := by rfl
/-- R51: another function is no request. -/
theorem test_decode_request_function : decode (.request [0x01, 0x04, 0x20, 0x00, 0x00, 0x10, 0x4F, 0xC6]) =
    .error .requestFunction := by rfl
/-- R50: a request has eight bytes. -/
theorem test_decode_request_length : decode (.request [0x01, 0x03]) = .error .requestLength := by rfl
/-- R56, V45: a response one byte short. -/
theorem test_decode_response_length : decode (.response [0x01, 0x03, 0x04, 0x43, 0x5C, 0x80, 0x00, 0x4E]) =
    .error .responseLength := by rfl
/-- R50: a response has a header. -/
theorem test_decode_response_header : decode (.response [0x01]) = .error .responseHeader := by rfl
/-- The numbers of the opcode table: the request of V20, byte 0 highest. -/
theorem test_table_request : decodeTableWord 64 0x0103200000104FC6 = some (.req 0x01 0x2000 16 0xC64F) := by decide +kernel
/-- The numbers of the opcode table: the exception of V52, and a normal response's header with no data. -/
theorem test_table_response : decodeTableWord 40 0x018302C0F1 = some (.exc 0x01 0x83 0x02 0xF1C0) ∧
    decodeTableWord 24 0x010300 = some (.rsp 0x01 0x03 [] 0) := by decide +kernel
/-- The numbers of the opcode table: the operation select. -/
theorem test_table_op : decodeTableWord 8 0x05 = some .decode ∧ decodeTableWord 16 0 = none := by decide +kernel

/-! ## Operations -/

/-- V2, and the cursor after six bytes. -/
theorem test_crc16_request : after (exec .crc16 (withRx [0x01, 0x03, 0x20, 0x00, 0x00, 0x10])) (fun t =>
    t.crcOut == Latch.holding 0xC64F && t.cursor == 6 && t.done) = true := by decide +kernel
/-- V1. -/
theorem test_crc16_empty : after (exec .crc16 (withRx [])) (fun t => t.crcOut == Latch.holding 0xFFFF) = true := by
  decide +kernel
/-- V23. -/
theorem test_build : after (exec .build (withRequest 0x02 0x200E 2)) (fun t =>
    t.tx.range 0 8 == [0x02, 0x03, 0x20, 0x0E, 0x00, 0x02, 0xAE, 0x3B]) = true := by decide +kernel
/-- V27: all-ones operands are encoded. -/
theorem test_build_ones : after (exec .build (withRequest 0xFF 0xFFFF 0xFFFF)) (fun t =>
    t.tx.range 0 8 == [0xFF, 0x03, 0xFF, 0xFF, 0xFF, 0xFF, 0x51, 0x80]) = true := by decide +kernel
/-- V49: the two extra bytes are ignored. -/
theorem test_parse : after (exec .parse
    (withRx [0x01, 0x03, 0x04, 0x43, 0x5C, 0x80, 0x00, 0x4E, 0x65, 0x00, 0x00])) (fun t =>
    t.status == Latch.holding .ok && t.frameValid && t.frame.payload == [0x43, 0x5C, 0x80, 0x00] &&
    t.frame.crc == 0x654E) = true := by decide +kernel
/-- V63: lengths are natural numbers. -/
theorem test_parse_short : after (exec .parse (withRx [0x01, 0x03, 0xFB, 0x00, 0x00])) (fun t =>
    t.status == Latch.holding .frameTooShort && !t.frameValid) = true := by decide +kernel
/-- V80. -/
theorem test_f32swap : after (exec .f32swap (withRaw ⟨0x43, 0x5C, 0x80, 0x00⟩)) (fun t =>
    t.shuf == Latch.holding ⟨0x00, 0x80, 0x5C, 0x43⟩ && t.wordOut == Latch.holding 0x435C8000) = true := by decide
/-- V87. -/
theorem test_f32swap_order : after (exec .f32swap (withRaw ⟨0x12, 0x34, 0x56, 0x78⟩)) (fun t =>
    t.shuf == Latch.holding ⟨0x78, 0x56, 0x34, 0x12⟩ && t.wordOut == Latch.holding 0x12345678) = true := by decide
/-- V104: the largest finite value. -/
theorem test_isvalid_finite : after (exec .isvalid (withWord 0x7F7FFFFF)) (fun t =>
    t.valid == Latch.holding true) = true := by decide
/-- V107: minus infinity. -/
theorem test_isvalid_infinity : after (exec .isvalid (withWord 0xFF800000)) (fun t =>
    t.valid == Latch.holding false) = true := by decide
/-- V122: lane 7 alone. -/
theorem test_decode_lane : after (exec .decode (withLane 7 ⟨0x3F, 0x9D, 0x70, 0xA4⟩)) (fun t =>
    t.reading == ⟨Latch.holding 0, Latch.holding 0, Latch.holding 0, Latch.holding 0, Latch.holding 0, Latch.holding 0,
      Latch.holding 0, Latch.holding 0x3F9D70A4⟩) = true := by decide
/-- V125: a NaN is not filtered. -/
theorem test_decode_nan : after (exec .decode (withLane 3 ⟨0x7F, 0xC0, 0x00, 0x00⟩)) (fun t =>
    t.reading.get 3 == Latch.holding 0x7FC00000 && t.reading.get 2 == Latch.holding 0) = true := by decide
/-- R58: `op` 6 and 7 are refused. -/
theorem test_reserved : refuses (step (started State.reset 6)) (.reservedOp 6) = true ∧
    refuses (step (started State.reset 7)) (.reservedOp 7) = true := by decide
/-- P4 step 1. -/
theorem test_crc_init : after (exec .crcInit (withAcc 0x1234)) (fun t => t.crcAcc == 0xFFFF && t.cursor == 0) = true := by
  decide
/-- P4 step 3. -/
theorem test_crc_byte : after (exec (.crcByte 0x83) (withAcc 0x807E)) (fun t =>
    t.crcAcc == 0x8141 && t.cursor == 1) = true := by decide +kernel
/-- V4: the low byte 0x00 after the XOR leaves eight plain shifts. -/
theorem test_crc_byte_plain : after (exec (.crcByte 0xFF) (withAcc 0xFFFF)) (fun t => t.crcAcc == 0x00FF) = true := by
  decide +kernel
/-- V5 step 2: the bit shifted out is 1. -/
theorem test_crc_bit_one : after (exec .crcBit (withAcc 0x7FFF)) (fun t => t.crcAcc == 0x9FFE) = true := by decide
/-- V5 step 1: the bit shifted out is 0. -/
theorem test_crc_bit_zero : after (exec .crcBit (withAcc 0xFFFE)) (fun t => t.crcAcc == 0x7FFF) = true := by decide
/-- V20, as a frame. -/
theorem test_req : after (exec (.req 0x01 0x2000 16 0xC64F) State.reset) (fun t =>
    t.tx.range 0 8 == [0x01, 0x03, 0x20, 0x00, 0x00, 0x10, 0x4F, 0xC6]) = true := by decide +kernel
/-- V51, as a frame: the function code is not checked. -/
theorem test_rsp : after (exec (.rsp 0x01 0x04 [0x12, 0x34] 0x47B4) State.reset) (fun t =>
    t.status == Latch.holding .ok && t.frame.function == 0x04 && t.frame.payload == [0x12, 0x34]) = true := by
  decide +kernel
/-- V47, as a frame: a payload byte changed. -/
theorem test_rsp_tampered : after (exec (.rsp 0x01 0x03 [0x43, 0x5D, 0x80, 0x00] 0x654E) State.reset) (fun t =>
    t.status == Latch.holding .crcMismatch && !t.frameValid) = true := by decide +kernel
/-- V52, as a frame. -/
theorem test_exc : after (exec (.exc 0x01 0x83 0x02 0xF1C0) State.reset) (fun t =>
    t.status == Latch.holding .protocolException && t.frameValid && t.frame.payload == [0x02]) = true := by
  decide +kernel
/-- V53, as a frame: the exception code changed. -/
theorem test_exc_tampered : after (exec (.exc 0x01 0x83 0x03 0xF1C0) State.reset) (fun t =>
    t.status == Latch.holding .crcMismatch && !t.frameValid) = true := by decide +kernel

/-! ## One step from reset -/

/-- The launch of `op` = 2 from reset: an empty message is too short. -/
theorem test_launch_op : after (step (State.reset.withFetchWord 8 0x02)) (fun t =>
    t.status == Latch.holding .frameTooShort && t.done) = true := by decide +kernel
/-- The launch of V20's frame from reset. -/
theorem test_launch_request : after (step (State.reset.withFetchWord 64 0x0103200000104FC6)) (fun t =>
    t.tx.range 6 2 == [0x4F, 0xC6]) = true := by decide +kernel

/-! ## Witnesses: the hypotheses of every statement, met together -/

theorem test_wit_DecodeOfEncode : (Instr.rsp 0x01 0x7F (List.replicate 255 0xFF) 0xFFFF).wf = true ∧
    (Instr.exc 0x01 0x80 0x00 0x0000).wf = true ∧ (Instr.req 0xFF 0xFFFF 0xFFFF 0xFFFF).wf = true := by decide +kernel

theorem test_wit_EncodeOfDecode : decode (.response [0x01, 0x83, 0x02, 0xC0, 0xF1]) =
    .ok (.exc 0x01 0x83 0x02 0xF1C0) := by rfl

theorem test_wit_ReservedOpsRefused : (started State.reset 6).start = true ∧ (started State.reset 6).inputs = [] ∧
    (started State.reset 6).op = Latch.holding 6 ∧ (started State.reset 7).op = Latch.holding 7 := by decide

theorem test_wit_StartedOperationRuns : (started ready 2).start = true ∧ (started ready 2).inputs = [] ∧
    (started ready 2).op = Latch.holding 2 ∧ (doing (started ready 2) [.wait]).inputs = [.wait] := by decide

theorem test_wit_TransactionRuns : (doing ready [.transact (.op 2)]).inputs = [.transact (.op 2)] ∧
    (doing ready [.transact (.op 2)]).start = false ∧ decode (.op 2) = .ok .parse ∧
    decode (.request []) = .error .requestLength ∧ (doing (started ready 2) [.transact .crcBit]).start = true :=
  ⟨rfl, rfl, rfl, rfl, rfl⟩

theorem test_wit_Handshake : (doing ready [.start]).inputs = [.start] ∧ (doing ready [.start]).start = false ∧
    (doing (started ready 2) [.start]).start = true ∧ (doing ready [.wait]).inputs = [.wait] ∧
    ready.inputs = [] ∧ ready.start = false := ⟨rfl, rfl, rfl, rfl, rfl, rfl⟩

theorem test_wit_Crc16Result : (withRx []).RxHolds [] := State.presentRx_holds _ (by decide)

theorem test_wit_Crc16Result_max : (withRx (List.replicate 260 0xFF)).RxHolds (List.replicate 260 0xFF) :=
  State.presentRx_holds _ (by decide +kernel)

theorem test_wit_SerialCrcAgrees : (withRx [0x01, 0x83, 0x02]).RxHolds ([0x01] ++ [0x83, 0x02]) :=
  State.presentRx_holds _ (by decide)

theorem test_wit_BuildResult : (withRequest 0xFF 0xFFFF 0).slave = Latch.holding 0xFF ∧
    (withRequest 0xFF 0xFFFF 0).startAddr = Latch.holding 0xFFFF ∧
    (withRequest 0xFF 0xFFFF 0).quantity = Latch.holding 0 := by decide

theorem test_wit_BuildCrcRoundTrip : (withRequest 0x01 0x2000 16).slave.held = true ∧
    (withRequest 0x01 0x2000 16).startAddr.held = true ∧ (withRequest 0x01 0x2000 16).quantity.held = true := by decide

theorem test_wit_ParseOutcomes : (withRx [0x01, 0x83, 0x02, 0xC0, 0xF1]).RxHolds [0x01, 0x83, 0x02, 0xC0, 0xF1] ∧
    (withRx [0x01, 0x83, 0x02, 0xC0, 0xF1]).params.trailingPolicy = .framePositioned ∧
    (withRx [0x01, 0x83, 0x02, 0xC0, 0xF1]).params.excBadCrc = .crcMismatch :=
  ⟨State.presentRx_holds _ (by decide), rfl, rfl⟩

/-- The six rows of the table of R97 at V41, V53, V52, V44, V47 and V43. -/
theorem test_wit_ParseOutcomes_rows :
    expectedParse [0x01, 0x03, 0x04, 0x43] = (.frameTooShort, none) ∧
    expectedParse [0x01, 0x83, 0x03, 0xC0, 0xF1] = (.crcMismatch, none) ∧
    expectedParse [0x01, 0x83, 0x02, 0xC0, 0xF1] = (.protocolException, some ⟨0x01, 0x83, [0x02], 0xF1C0⟩) ∧
    expectedParse [0x01, 0x03, 0x04, 0x43, 0x5C] = (.frameTooShort, none) ∧
    expectedParse [0x01, 0x03, 0x04, 0x43, 0x5D, 0x80, 0x00, 0x4E, 0x65] = (.crcMismatch, none) ∧
    expectedParse [0x01, 0x03, 0x00, 0x20, 0xF0] = (.ok, some ⟨0x01, 0x03, [], 0xF020⟩) := by decide +kernel

theorem test_wit_ParseShortInput : { State.reset with rxLen := Latch.holding 4 }.rxLen = Latch.holding 4 ∧
    4 ≤ State.reset.params.rxMax ∧ 4 < 5 ∧ { State.reset with rxLen := Latch.holding 0 }.rxLen = Latch.holding 0 ∧
    0 ≤ State.reset.params.rxMax := by decide

/-- The input of V49, and its declared length. -/
theorem test_wit_ParseLongerInput (p : TrailingPolicy) :
    (withPolicy p [0x01, 0x83, 0x02, 0xC0, 0xF1, 0x99]).RxHolds [0x01, 0x83, 0x02, 0xC0, 0xF1, 0x99] ∧
    (withPolicy p [0x01, 0x83, 0x02, 0xC0, 0xF1, 0x99]).params.trailingPolicy = p ∧
    (withPolicy p [0x01, 0x83, 0x02, 0xC0, 0xF1, 0x99]).params.excBadCrc = .crcMismatch ∧
    declaredLength [0x01, 0x83, 0x02, 0xC0, 0xF1, 0x99] = 5 ∧
    declaredLength [0x01, 0x03, 0x00, 0x20, 0xF0] = [0x01, 0x03, 0x00, 0x20, 0xF0].length :=
  ⟨⟨rfl, by cases p <;> decide, by cases p <;> decide⟩, rfl, rfl, rfl, rfl⟩

/-- V45, one byte short of the nine it declares, and V63, the shortest input of the clause. -/
theorem test_wit_ParseLongerInput_short (p : TrailingPolicy) :
    (withPolicy p [0x01, 0x03, 0xFB, 0x00, 0x00]).RxHolds [0x01, 0x03, 0xFB, 0x00, 0x00] ∧
    ([0x01, 0x03, 0xFB, 0x00, 0x00] : List Byte).length < declaredLength [0x01, 0x03, 0xFB, 0x00, 0x00] ∧
    declaredLength [0x01, 0x03, 0x04, 0x43, 0x5C, 0x80, 0x00, 0x4E] = 9 :=
  ⟨⟨rfl, by cases p <;> decide, by cases p <;> decide⟩, by decide, rfl⟩

theorem test_wit_ExceptionBadCrc : (withRx [0x01, 0x83, 0x03, 0xC0, 0xF1]).RxHolds [0x01, 0x83, 0x03, 0xC0, 0xF1] ∧
    (withExcBadCrc [0x01, 0x83, 0x03, 0xC0, 0xF1]).RxHolds [0x01, 0x83, 0x03, 0xC0, 0xF1] ∧
    (0x83 : Byte).getLsbD 7 = true ∧ crc16 [0x01, 0x83, 0x03] ≠ le16 0xC0 0xF1 ∧
    (withRx [0x01, 0x83, 0x03, 0xC0, 0xF1]).params.excBadCrc = .crcMismatch ∧
    (withExcBadCrc [0x01, 0x83, 0x03, 0xC0, 0xF1]).params.excBadCrc = .protocolException :=
  ⟨by decide, by decide, by decide, by decide +kernel, rfl, rfl⟩

/-- V54 under `buffer_end`: the received CRC is the last two bytes. -/
theorem test_wit_ExceptionBadCrc_longer :
    (withPolicy .bufferEnd [0x01, 0x83, 0x02, 0xC0, 0xF1, 0x99, 0x99]).RxHolds
      [0x01, 0x83, 0x02, 0xC0, 0xF1, 0x99, 0x99] ∧
    ([0x01, 0x83, 0x02, 0xC0, 0xF1, 0x99, 0x99] : List Byte)[7 - 2]? = some 0x99 ∧
    crc16 [0x01, 0x83, 0x02] ≠ le16 0x99 0x99 := ⟨by decide, by decide, by decide +kernel⟩

/-- V46 and V52, synthesized with their CRCs. -/
theorem test_wit_ParseBuildInverse :
    (withRx [0x01, 0x03, 0x04, 0x43, 0x5C, 0x80, 0x00, 0x4E, 0x65]).RxHolds
      ([0x01, 0x03, BitVec.ofNat 8 4] ++ [0x43, 0x5C, 0x80, 0x00] ++
        [lo8 (crc16 ([0x01, 0x03, BitVec.ofNat 8 4] ++ [0x43, 0x5C, 0x80, 0x00])),
         hi8 (crc16 ([0x01, 0x03, BitVec.ofNat 8 4] ++ [0x43, 0x5C, 0x80, 0x00]))]) ∧
    (withRx [0x01, 0x83, 0x02, 0xC0, 0xF1]).RxHolds
      [0x01, 0x83, 0x02, lo8 (crc16 [0x01, 0x83, 0x02]), hi8 (crc16 [0x01, 0x83, 0x02])] := by decide +kernel

/-- E3: the input of V46 is accepted, and byte 4 is a payload byte; byte 0 is the slave address. -/
theorem test_wit_TamperDetected : ∃ t,
    (withRx [0x01, 0x03, 0x04, 0x43, 0x5C, 0x80, 0x00, 0x4E, 0x65]).RxHolds
      [0x01, 0x03, 0x04, 0x43, 0x5C, 0x80, 0x00, 0x4E, 0x65] ∧
    (withRx [0x01, 0x03, 0x04, 0x43, 0x5D, 0x80, 0x00, 0x4E, 0x65]).RxHolds
      ([0x01, 0x03, 0x04, 0x43, 0x5C, 0x80, 0x00, 0x4E, 0x65].set 4 0x5D) ∧
    (withRx [0x02, 0x03, 0x04, 0x43, 0x5C, 0x80, 0x00, 0x4E, 0x65]).RxHolds
      ([0x01, 0x03, 0x04, 0x43, 0x5C, 0x80, 0x00, 0x4E, 0x65].set 0 0x02) ∧
    exec .parse (withRx [0x01, 0x03, 0x04, 0x43, 0x5C, 0x80, 0x00, 0x4E, 0x65]) = .next t ∧ t.frameValid = true ∧
    declaredLength [0x01, 0x03, 0x04, 0x43, 0x5C, 0x80, 0x00, 0x4E, 0x65] = 9 ∧
    (0x5D : Byte) ≠ 0x5C ∧ (0x03 : Byte).getLsbD 7 = false := by
  obtain ⟨t, h1, h2⟩ := exists_of_after (r := exec .parse (withRx [0x01, 0x03, 0x04, 0x43, 0x5C, 0x80, 0x00, 0x4E, 0x65]))
    (p := fun t => t.frameValid) (by decide +kernel)
  exact ⟨t, by decide, by decide, by decide, h1, h2, rfl, by decide, by decide⟩

/-- The exception of V52, its code changed. -/
theorem test_wit_TamperDetected_exception : ∃ t,
    (withRx [0x01, 0x83, 0x02, 0xC0, 0xF1]).RxHolds [0x01, 0x83, 0x02, 0xC0, 0xF1] ∧
    (withRx [0x01, 0x83, 0x03, 0xC0, 0xF1]).RxHolds ([0x01, 0x83, 0x02, 0xC0, 0xF1].set 2 0x03) ∧
    exec .parse (withRx [0x01, 0x83, 0x02, 0xC0, 0xF1]) = .next t ∧ t.frameValid = true ∧
    declaredLength [0x01, 0x83, 0x02, 0xC0, 0xF1] = 5 ∧ (0x83 : Byte).getLsbD 7 = true := by
  obtain ⟨t, h1, h2⟩ := exists_of_after (r := exec .parse (withRx [0x01, 0x83, 0x02, 0xC0, 0xF1]))
    (p := fun t => t.frameValid) (by decide +kernel)
  exact ⟨t, by decide, by decide, h1, h2, rfl, by decide⟩

/-- FrameCrcIsLocal: V46 under the default, and V46 under `buffer_end`, where its own CRC bytes are the last two. -/
theorem test_wit_FrameCrcIsLocal (p : TrailingPolicy) : ∃ t,
    (withPolicy p [0x01, 0x03, 0x00, 0x20, 0xF0]).RxHolds [0x01, 0x03, 0x00, 0x20, 0xF0] ∧
    (withPolicy p [0x01, 0x03, 0x00, 0x20, 0xF0]).params.excBadCrc = .crcMismatch ∧
    exec .parse (withPolicy p [0x01, 0x03, 0x00, 0x20, 0xF0]) = .next t ∧ t.frameValid = true := by
  obtain ⟨t, h1, h2⟩ := exists_of_after (r := exec .parse (withPolicy p [0x01, 0x03, 0x00, 0x20, 0xF0]))
    (p := fun t => t.frameValid) (by cases p <;> decide +kernel)
  exact ⟨t, ⟨rfl, by cases p <;> decide, by cases p <;> decide⟩, rfl, h1, h2⟩

/-- V51 has the right CRC, V47 a wrong one; 255 data bytes just fit into `RX`. -/
theorem test_wit_NormalResponseParsed : (0x04 : Byte).getLsbD 7 = false ∧ 5 + 255 ≤ State.reset.params.rxMax ∧
    crc16 ([0x01, 0x04, BitVec.ofNat 8 2] ++ [0x12, 0x34]) = 0x47B4 ∧
    crc16 ([0x01, 0x03, BitVec.ofNat 8 4] ++ [0x43, 0x5D, 0x80, 0x00]) ≠ 0x654E := by decide +kernel

/-- V52 and V53, under both values of `EXC_BAD_CRC`. -/
theorem test_wit_ExceptionResponseParsed : (0x83 : Byte).getLsbD 7 = true ∧ 5 ≤ State.reset.params.rxMax ∧
    State.reset.params.excBadCrc = .crcMismatch ∧
    5 ≤ (withExcBadCrc []).params.rxMax ∧ (withExcBadCrc []).params.excBadCrc = .protocolException ∧ crc16 [0x01, 0x83, 0x02] = 0xF1C0 ∧
    crc16 [0x01, 0x83, 0x03] ≠ 0xF1C0 := by decide +kernel

theorem test_wit_ExceptionFlagAgrees : ∃ t, exec .parse (withRx [0x01, 0x83, 0x02, 0xC0, 0xF1]) = .next t ∧
    t.frameValid = true ∧ t.exceptionFlag = true := by
  obtain ⟨t, h1, h2⟩ := exists_of_after (r := exec .parse (withRx [0x01, 0x83, 0x02, 0xC0, 0xF1]))
    (p := fun t => t.frameValid && t.exceptionFlag) (by decide +kernel)
  simp only [Bool.and_eq_true] at h2
  exact ⟨t, h1, h2.1, h2.2⟩

theorem test_wit_F32SwapResult : (withRaw ⟨0x12, 0x34, 0x56, 0x78⟩).raw = Latch.holding ⟨0x12, 0x34, 0x56, 0x78⟩ := rfl

theorem test_wit_IsValidResult : (withWord 0x7F800001).wordIn = Latch.holding 0x7F800001 := rfl

theorem test_wit_DecodeResult : (withLane 3 ⟨0x7F, 0xC0, 0x00, 0x00⟩).lanePresent = Latch.holding 0x08 ∧
    ∀ k : Fin 8, (0x08 : BitVec 8).getLsbD k.val = true →
      ((withLane 3 ⟨0x7F, 0xC0, 0x00, 0x00⟩).laneRaw.get k).held = true := by decide

/-- After reset every operand is missing; then each later clause, with the operands before it there. -/
theorem test_wit_MissingOperandFaults :
    (State.reset.rxLen.held = false ∧ State.reset.slave.held = false ∧ State.reset.raw.held = false ∧
      State.reset.wordIn.held = false ∧ State.reset.lanePresent.held = false) ∧
    ({ withRx [0x01] with rxLen := Latch.holding 2 }.rxLen = Latch.holding 2 ∧ 1 < 2 ∧
      { withRx [0x01] with rxLen := Latch.holding 2 }.rx.read 1 = none ∧
      ({ withRx [0x01] with rxLen := Latch.holding 2 }.rx.read 0).isSome) ∧
    ({ State.reset with slave := Latch.holding 0x01 }.slave.held = true ∧
      { State.reset with slave := Latch.holding 0x01 }.startAddr.held = false) ∧
    ({ withRequest 0x01 0x2000 16 with quantity := Latch.empty 0 }.startAddr.held = true ∧
      { withRequest 0x01 0x2000 16 with quantity := Latch.empty 0 }.quantity.held = false) ∧
    ({ State.reset with lanePresent := Latch.holding 0x81 }.lanePresent.value.getLsbD 0 = true ∧
      ({ State.reset with lanePresent := Latch.holding 0x81 }.laneRaw.get 0).held = false) := by decide

/-- The same, with lane 7 the first missing one. -/
theorem test_wit_MissingOperandFaults_lane :
    { withLane 0 ⟨0, 0, 0, 0⟩ with lanePresent := Latch.holding 0x81 }.lanePresent.value.getLsbD 7 = true ∧
    ({ withLane 0 ⟨0, 0, 0, 0⟩ with lanePresent := Latch.holding 0x81 }.laneRaw.get 7).held = false ∧
    ∀ j : Fin 8, j < 7 →
      { withLane 0 ⟨0, 0, 0, 0⟩ with lanePresent := Latch.holding 0x81 }.lanePresent.value.getLsbD j.val = true →
      ({ withLane 0 ⟨0, 0, 0, 0⟩ with lanePresent := Latch.holding 0x81 }.laneRaw.get j).held = true := by decide

/-- PARSE: an exception header whose code is missing, a normal one whose byteCount is, and a payload byte missing before the
CRC; then no byte at all. -/
theorem test_wit_MissingOperandFaults_parse :
    (missing 2 [0x01, 0x83, 0x02, 0xC0, 0xF1]).rx.read 1 = some 0x83 ∧
    (missing 2 [0x01, 0x83, 0x02, 0xC0, 0xF1]).rx.read 2 = none ∧
    ((missing 2 [0x01, 0x83, 0x02, 0xC0, 0xF1]).rx.read 3).isSome ∧
    ((missing 2 [0x01, 0x83, 0x02, 0xC0, 0xF1]).rx.read 4).isSome ∧
    (missing 2 [0x01, 0x03, 0x00, 0x20, 0xF0]).rx.read 2 = none ∧
    (missing 3 [0x01, 0x03, 0x01, 0x20, 0xF0, 0x00]).rx.read 2 = some 0x01 ∧
    (missing 3 [0x01, 0x03, 0x01, 0x20, 0xF0, 0x00]).rx.read 3 = none ∧
    (missing 5 [0x01, 0x03, 0x01, 0x20, 0xF0, 0x00]).rx.read 5 = none ∧
    { State.reset with rxLen := Latch.holding 5 }.rx.read 0 = none := by decide

/-- `start` asserted while `op` holds no value, the host having nothing more to do, or waiting. -/
theorem test_wit_MissingOperandFaults_op :
    { ready with start := true, op := Latch.empty 0 }.op.held = false ∧
    { ready with start := true, op := Latch.empty 0 }.start = true ∧
    { ready with start := true, op := Latch.empty 0 }.inputs = [] ∧
    (doing { ready with start := true, op := Latch.empty 0 } [.wait]).inputs = [.wait] := by decide

/-- Every operation answers a next state on `ready` (OperationsWriteOnlyResults, OperationsIdempotent,
OperationsCommute). -/
theorem test_wit_operations : ∀ i ∈ [Instr.crc16, .build, .parse, .f32swap, .isvalid, .decode],
    isOperation i = true ∧ ∃ t, exec i ready = .next t := by
  have h : ∀ i ∈ [Instr.crc16, .build, .parse, .f32swap, .isvalid, .decode],
      isOperation i = true ∧ after (exec i ready) (fun _ => true) = true := by decide +kernel
  intro i hi
  obtain ⟨t, ht, -⟩ := exists_of_after (h i hi).2
  exact ⟨(h i hi).1, t, ht⟩

theorem test_wit_OperationsWriteOnlyResults : ready.tx.within 8 := by decide

theorem test_wit_EveryOperationEnds : Ready .crc16 ready ∧ Ready .build ready ∧ Ready .parse ready ∧
    Ready .f32swap ready ∧ Ready .isvalid ready ∧ Ready .decode ready ∧
    Ready (.rsp 0x01 0x03 [] 0) State.reset ∧ Ready (.exc 0x01 0x83 0x02 0) State.reset := by
  have hm : ready.RxHolds [0x01, 0x03, 0x04, 0x43, 0x5C, 0x80, 0x00, 0x4E, 0x65] := by decide
  refine ⟨⟨_, hm⟩, ⟨rfl, rfl, rfl⟩, ⟨by decide, _, hm⟩, rfl, rfl, ⟨rfl, by decide⟩, ⟨by decide, by decide, by decide⟩,
    ⟨by decide, by decide⟩⟩

theorem test_wit_ResultsFromOperandsOnly : SameOperands ready
      { ready with crcAcc := 0x1234, done := true, status := Latch.holding .crcMismatch } ∧
    ready ≠ { ready with crcAcc := 0x1234, done := true, status := Latch.holding .crcMismatch } :=
  ⟨⟨rfl, rfl, rfl, rfl, fun _ => rfl, rfl, rfl, rfl, rfl, rfl⟩, by decide⟩

theorem test_wit_ResetAbandons : (doing (started ready 2) [.reset]).inputs = [.reset] := rfl

/-- An operand of the operation in hand, at the last byte of `RX`. -/
theorem test_wit_OperandsMustBeStable : (doing (started ready 2) [.setRxByte 259 0]).inputs = [.setRxByte 259 0] ∧
    (HostAct.setRxByte 259 0).writes = some (.rx 259) ∧ (started ready 2).start = true ∧
    (started ready 2).op.held = true ∧ (OperandLatch.rx 259).usedBy (started ready 2).op.value = true ∧
    259 < (started ready 2).params.rxMax := by decide

/-- `op` itself, with an operation in hand and with none. -/
theorem test_wit_OperandsMustBeStable_op : (HostAct.setOp 3).writes = some .op ∧ (started ready 2).inHand .op = true ∧
    { ready with start := true, op := Latch.empty 0 }.inHand .op = true ∧
    { ready with start := true, op := Latch.empty 0 }.inHand .rxLen = false := by decide

/-- The same write while no operation, or one with other operands, is in hand. -/
theorem test_wit_HostWritesOperand : (doing ready [.setRxByte 259 0]).inputs = [.setRxByte 259 0] ∧
    (doing ready [.setRxByte 259 0]).inHand (.rx 259) = false ∧
    (doing (started ready 1) [.setRxByte 259 0]).inHand (.rx 259) = false ∧
    (HostAct.setRxByte 259 0).writes = some (.rx 259) ∧
    HostAct.fits ready.params.rxMax (.setRxByte 259 0) ∧ HostAct.mayRead (.setRxByte 259 0) ready ∧
    HostAct.mayRead .lanesElec (withPayload []).finish :=
  ⟨rfl, by decide, by decide, rfl, show 259 < 260 by decide, by simp [HostAct.mayRead], fun _ => rfl⟩

/-- Latches these actions leave: another lane than those sliced among them. -/
theorem test_wit_HostWritesOperand_other : ¬ HostAct.touches (.setSlave 0x01) .raw ∧
    ¬ HostAct.touches (.setRxByte 259 0) (.rx 258) ∧ ¬ HostAct.touches (.exchange []) .op ∧
    ¬ HostAct.touches (.setLane 3 Quad.zero) (.laneRaw 2) ∧ ¬ HostAct.touches .lanesElec (.laneRaw 7) ∧
    ¬ HostAct.touches .lanesEnergy (.laneRaw 6) := by simp [HostAct.touches, elecLanes]

/-- One beyond each capacity. -/
theorem test_wit_RxCapacity : State.reset.params.rxMax ≤ 260 ∧ State.reset.params.rxMax < 261 ∧
    State.reset.params.rxMax < (List.replicate 261 (0 : Byte)).length ∧
    { State.reset with rxLen := Latch.holding 261 }.rxLen.held = true ∧
    { State.reset with rxLen := Latch.holding 261 }.params.rxMax <
      { State.reset with rxLen := Latch.holding 261 }.rxLen.value := by decide +kernel

/-- Response frames one byte longer than `RX`. -/
theorem test_wit_RxCapacity_frames :
    { State.reset with params := { Config.default with rxMax := 6 } }.params.rxMax < 5 + ([0x12, 0x34] : List Byte).length ∧
    { State.reset with params := { Config.default with rxMax := 4 } }.params.rxMax < 5 := by decide

/-- A Frame read with and without a Frame, before and after `done`; byte 3 is the last of four. -/
theorem test_wit_ResultReads :
    ((withPayload [0x43, 0x5C, 0x80, 0x00]).finish.holdsResult (.frameData 3) = true ∧
      (withPayload [0x43, 0x5C, 0x80, 0x00]).finish.done = true) ∧
    (withPayload [0x43, 0x5C, 0x80, 0x00]).done = false ∧
    (withPayload [0x43, 0x5C, 0x80, 0x00]).holdsResult (.frameData 4) = false ∧
    State.reset.frameValid = false ∧ State.reset.holdsResult .frameValid = true ∧
    (doing State.reset [.read .frameCrc]).inputs = [.read .frameCrc] := by decide

theorem test_wit_StepKeepsInv : (started ready 2).Inv ∧ ∃ t, step (started ready 2) = .next t := by
  refine ⟨by unfold State.Inv; decide, ?_⟩
  obtain ⟨t, h, -⟩ := exists_of_after (r := step (started ready 2)) (p := fun _ => true) (by decide +kernel)
  exact ⟨t, h⟩

theorem test_wit_StepKeepsParams : step State.reset = .next State.reset := rfl

theorem test_wit_ReadRequestsBuilt : (doing State.reset (readElec 0x01)).start = false ∧
    (doing State.reset (readElec 0x01)).inputs = readElec 0x01 ++ [] ∧
    (doing State.reset (readEnergy 0xFF)).inputs = readEnergy 0xFF ++ [] := by decide

/-- A payload of 32 bytes read with OK, one of 31, which cuts lane 6 off, and the Frame of an exception; `done` is 1. -/
theorem test_wit_LanesElecSlices :
    (doing (withPayload (List.replicate 32 0x01)).finish [.lanesElec]).inputs = [.lanesElec] ∧
    (withPayload (List.replicate 32 0x01)).finish.inHand .lanePresent = false ∧
    (withPayload (List.replicate 32 0x01)).finish.done = true ∧
    (withPayload (List.replicate 32 0x01)).finish.frameValid = true ∧
    (withPayload (List.replicate 32 0x01)).finish.status = Latch.holding .ok ∧
    laneOffset 6 + 4 ≤ (withPayload (List.replicate 32 0x01)).finish.frame.payload.length ∧
    ¬ laneOffset 6 + 4 ≤ (withPayload (List.replicate 31 0x01)).finish.frame.payload.length ∧
    (State.reset.report .protocolException (some ⟨0x01, 0x83, Memory.ofBytes [0x02], 1, 0xF1C0⟩)).status ≠
      Latch.holding .ok := by
  decide +kernel

/-- The payload of V66, four bytes, and one of three; before `done`, with PARSE in hand, it is refused. -/
theorem test_wit_LanesEnergySlices :
    (doing (withPayload [0x44, 0x9A, 0x50, 0x00]).finish [.lanesEnergy]).inputs = [.lanesEnergy] ∧
    (withPayload [0x44, 0x9A, 0x50, 0x00]).finish.inHand .lanePresent = false ∧
    laneOffset 7 + 4 ≤ (withPayload [0x44, 0x9A, 0x50, 0x00]).finish.frame.payload.length ∧
    ¬ laneOffset 7 + 4 ≤ (withPayload [0x44, 0x9A, 0x50]).finish.frame.payload.length ∧
    (started (withPayload []) 2).inHand .lanePresent = false ∧ (started (withPayload []) 2).done = false := by decide

theorem test_wit_CheckMeansResidue : 2 ≤ ([0xFF, 0xFF] : List Byte).length := by decide

theorem test_wit_AnswerLengths : (List.replicate 250 (0 : Byte)).length = expectedByteCount 125#16 := by decide +kernel

end Sys2Proof.Tests
end

section
/-!
PROOF. Parameters and transactions: no step changes a parameter (R6, R19), a transaction runs its instruction (R7), and
the reset state holds no values (R21).
-/

namespace Sys2Proof.Machine

@[simp] theorem presentCode_params (s : State) (c : Code) : (s.presentCode c).params = s.params := by
  cases c <;> rfl

/-- Every outcome of PARSE keeps the parameters, its one report and its CRC computation doing so. -/
theorem runParse_params {s t : State} (h : s.runParse = .next t) : t.params = s.params := by
  obtain ⟨s1, o, f, rfl, hs1, -, -⟩ := runParse_reports h
  obtain rfl | ⟨acc, k, rfl⟩ := hs1
  · simp
  · simp

/-- No instruction changes a parameter. -/
theorem exec_params {i : Instr} {s t : State} (h : exec i s = .next t) : t.params = s.params := by
  cases i with
  | crc16 =>
    obtain ⟨m, -, rfl⟩ := execCrc16_next.mp h
    rfl
  | build =>
    obtain ⟨a, x, q, -, -, -, rfl⟩ := runBuild_next.mp h
    rfl
  | parse => exact runParse_params h
  | f32swap =>
    obtain ⟨r, -, rfl⟩ := execF32swap_next.mp h
    rfl
  | isvalid =>
    obtain ⟨w, -, rfl⟩ := execIsvalid_next.mp h
    rfl
  | decode =>
    obtain ⟨p, -, -, rfl⟩ := execDecode_next.mp h
    rfl
  | reserved6 => cases h
  | reserved7 => cases h
  | crcInit => cases h; rfl
  | crcByte b => cases h; rfl
  | crcBit => cases h; rfl
  | req a x q crc =>
    have hb : ((s.presentOp 1#3).presentRequest a x q).runBuild = .next t := h
    obtain ⟨-, -, -, -, -, -, rfl⟩ := runBuild_next.mp hb
    rfl
  | rsp a f data crc =>
    exact runParse_params (s := (s.presentOp 2#3).presentRx (responseBytes a f data crc)) h
  | exc a f e crc =>
    exact runParse_params (s := (s.presentOp 2#3).presentRx (exceptionBytes a f e crc)) h

/-- No host action changes a parameter: a reset keeps them [26], a transaction is an instruction. -/
theorem drive_params {s t : State} {a : HostAct} (h : s.drive a = .next t) : t.params = s.params := by
  obtain hw | ⟨-, -, rfl⟩ | ⟨-, rfl⟩ | ⟨-, rfl⟩ | ⟨c, i, -, -, -, hi⟩ := drive_cases h
  · obtain ⟨hparams, -⟩ := hw
    exact hparams
  · rfl
  · rfl
  · rfl
  · rw [exec_params hi, presentCode_params]

/-- Settles O48, by the cases of one step. -/
theorem stepKeepsParams : Obligations.StepKeepsParams := by
  intro s t h
  obtain ⟨-, -, rfl⟩ | ⟨-, rest, -, rfl⟩ | ⟨-, h⟩ | ⟨a, rest, -, -, h⟩ := step_cases h
  · rfl
  · rfl
  · obtain ⟨bits, -, h⟩ := runStarted_next.mp h
    exact exec_params h
  · exact drive_params (s := { s with inputs := rest }) h

/-- R7: with no operation in hand, a code that decodes is executed. -/
theorem hostTransacts_ok {s : State} {c : Code} {i : Instr} (hs : s.start = false) (hc : decode c = .ok i) :
    s.hostTransacts c = exec i (s.presentCode c) := by
  simp [State.hostTransacts, hs, hc]

/-- R50: with no operation in hand, a code that does not decode is refused [11]. -/
theorem hostTransacts_error {s : State} {c : Code} {e : DecodeError} (hs : s.start = false)
    (hc : decode c = .error e) : s.hostTransacts c = .refused .notAFrame := by
  simp [State.hostTransacts, hs, hc]

/-- R186: with an operation in hand a transaction is refused, whatever its code [15]. -/
theorem hostTransacts_started {s : State} (c : Code) (hs : s.start = true) :
    s.hostTransacts c = .refused .secondStart := by
  simp [State.hostTransacts, hs]

/-- Settles O8: the step carries the transaction out, and the transaction goes by `start` and the decoder. -/
theorem transactionRuns : Obligations.TransactionRuns := by
  intro s c rest hin
  have hstep : step s = State.hostTransacts { s with inputs := rest } c := step_act hin (by simp)
  rw [hstep]
  exact ⟨fun hs _ hc => hostTransacts_ok hs hc, fun hs _ hc => hostTransacts_error hs hc,
    fun hs => hostTransacts_started c hs⟩

theorem Lanes.get_all {α : Type} (a : α) (k : Fin 8) : (Lanes.all a).get k = a := by
  fin_cases k <;> rfl

/-- After reset no result latch but `frame_valid` holds a value. -/
theorem reset_holdsResult {l : ResultLatch} (hl : l ≠ .frameValid) : State.reset.holdsResult l = false := by
  cases l with
  | frameValid => exact absurd rfl hl
  | reading k => exact congrArg Latch.held (Lanes.get_all _ k)
  | _ => rfl

/-- Settles O40, latch by latch. -/
theorem resetHasNoValues : Obligations.ResetHasNoValues := by
  have lanes (k : Fin 8) : (State.reset.laneRaw.get k).held = false := congrArg Latch.held (Lanes.get_all _ k)
  exact ⟨⟨rfl, rfl, ⟨rfl, rfl, rfl, rfl, fun _ => rfl, rfl, rfl, rfl, lanes, rfl⟩,
    fun _ => reset_holdsResult⟩, rfl⟩

end Sys2Proof.Machine
end

section
/-!
PROOF. PARSE of a message (R90 to R98, R102), said once for both branches and every parameter, by the outcome the covered
bytes and the received CRC give.
-/

namespace Sys2Proof.Machine

/-! ## What PARSE delivers -/

/-- R14: a Frame as the Frame latches hold it. -/
def FrameRecord.latches (r : FrameRecord) : Frame :=
  ⟨r.slave, r.function, Memory.ofBytes r.data, r.data.length, r.crc⟩

/-- R164: reporting an outcome and ending the operation delivers it, whatever was done before to other latches than the
Frame's. -/
theorem report_delivered {s s1 : State} (hf : s1.frame = s.frame) (outcome : Status × Option FrameRecord) :
    Delivered outcome s (s1.report outcome.1 (outcome.2.map FrameRecord.latches)).finish := by
  obtain ⟨o, none | r⟩ := outcome
  · simp [Delivered, hf]
  · simp [Delivered, FrameRecord.latches, Frame.payload]

/-- Delivery looks at no latch of the earlier state but the Frame's. -/
theorem Delivered.of_frame {outcome : Status × Option FrameRecord} {s u t : State} (h : Delivered outcome u t)
    (hf : u.frame = s.frame) : Delivered outcome s t := by
  rw [Delivered, ← hf]
  exact h

/-- R22: whatever PARSE answers, only the latches of its results, the CRC computation and the handshake differ. -/
theorem runParse_frame {s t : State} (h : s.runParse = .next t) :
    t = { s with status := t.status, frameValid := t.frameValid, frame := t.frame, crcAcc := t.crcAcc,
                 cursor := t.cursor, start := t.start, done := t.done } := by
  obtain ⟨s1, o, f, rfl, hs1, -, -⟩ := runParse_reports h
  obtain rfl | ⟨acc, k, rfl⟩ := hs1
  · cases f <;> rfl
  · cases f <;> rfl

/-! ## The outcome of a frame that is all there -/

/-- R93, R94: the status of a frame whose CRC is right. -/
def goodStatus (function : Byte) : Status := if function.getLsbD 7 then .protocolException else .ok

/-- R93, R94: the status of a frame whose CRC is wrong; `EXC_BAD_CRC` names that of an exception response [8]. -/
def badStatus (excBadCrc : ExcBadCrc) (function : Byte) : Status :=
  if function.getLsbD 7 then badExceptionStatus excBadCrc else .crcMismatch

/-- R52, R53: where the payload begins. -/
def payloadAt (function : Byte) : Nat := if function.getLsbD 7 then 2 else hdrLen

/-- R93, R94: the outcome for a frame of these covered bytes and this received CRC, with its Frame where R14 gives one. -/
def frameOutcome (excBadCrc : ExcBadCrc) (slave function : Byte) (covered : List Byte) (received : Half) :
    Status × Option FrameRecord :=
  let outcome := if crc16 covered = received then goodStatus function else badStatus excBadCrc function
  (outcome, if outcome.givesFrame then
    some ⟨slave, function, covered.drop (payloadAt function), received⟩ else none)

theorem frameOutcome_latches (excBadCrc : ExcBadCrc) (slave function : Byte) (covered : List Byte) (received : Half) :
    (frameOutcome excBadCrc slave function covered received).2.map FrameRecord.latches =
      if (frameOutcome excBadCrc slave function covered received).1.givesFrame then
        some ⟨slave, function, Memory.ofBytes (covered.drop (payloadAt function)),
          (covered.drop (payloadAt function)).length, received⟩
      else none :=
  apply_ite ..

theorem frameOutcome_good {excBadCrc : ExcBadCrc} {slave function : Byte} {covered : List Byte} {received : Half}
    (h : crc16 covered = received) : frameOutcome excBadCrc slave function covered received =
      (goodStatus function, some ⟨slave, function, covered.drop (payloadAt function), received⟩) := by
  have hg : (goodStatus function).givesFrame = true := by
    unfold goodStatus
    split_ifs <;> rfl
  simp [frameOutcome, h, hg]

theorem frameOutcome_bad {excBadCrc : ExcBadCrc} {slave function : Byte} {covered : List Byte} {received : Half}
    (h : crc16 covered ≠ received) : frameOutcome excBadCrc slave function covered received =
      (badStatus excBadCrc function, if (badStatus excBadCrc function).givesFrame then
        some ⟨slave, function, covered.drop (payloadAt function), received⟩ else none) := by
  simp [frameOutcome, h]

/-- R93 to R95: once the received CRC and the covered bytes are read, the comparison delivers their outcome. -/
theorem checkFrame_delivers {s : State} {n k : Nat} {a f : Byte} {received : Half} {covered : List Byte}
    {excBadCrc : ExcBadCrc} (hfit : ¬(s.params.trailingPolicy = .refuse ∧ k + crcLen < n))
    (hreceived : s.rxLe16 (crcPosition s.params.trailingPolicy n k) = .next received)
    (hcovered : s.rxBytes 0 k = .next covered) :
    ∃ t, s.checkFrame n k (payloadAt f) a f (goodStatus f) (badStatus excBadCrc f) = .next t ∧
      Delivered (frameOutcome excBadCrc a f covered received) s t := by
  refine ⟨_, checkFrame_next.mpr ⟨hfit, received, covered, hreceived, hcovered, ?_⟩,
    report_delivered (s1 := s.ranCrc (crc16 covered) k) rfl _⟩
  rw [frameOutcome_latches]
  rfl

/-! ## The three header bytes -/

theorem exists_header {m : List Byte} (h : 5 ≤ m.length) :
    ∃ a f c, m[0]? = some a ∧ m[1]? = some f ∧ m[2]? = some c :=
  ⟨_, _, _, List.getElem?_eq_getElem (by omega), List.getElem?_eq_getElem (by omega),
    List.getElem?_eq_getElem (by omega)⟩

theorem five_le_declaredLength (m : List Byte) : 5 ≤ declaredLength m := by
  unfold declaredLength
  split
  · split_ifs
    · exact le_refl 5
    · exact Nat.le_add_right 5 _
  · exact le_refl 5

section
variable {m : List Byte} {a f c : Byte} (ha : m[0]? = some a) (hf : m[1]? = some f) (hc : m[2]? = some c)
include ha hf hc

theorem eq_header_append : ∃ rest, m = a :: f :: c :: rest := by
  match m with
  | a' :: f' :: c' :: rest => exact ⟨rest, by simp_all⟩
  | [] => cases ha
  | [_] => cases hf
  | [_, _] => cases hc

theorem take_header : m.take 3 = [a, f, c] := by
  obtain ⟨rest, rfl⟩ := eq_header_append ha hf hc
  rfl

/-- R53, R56: an exception response declares five bytes. -/
theorem declaredLength_exception (h7 : f.getLsbD 7 = true) : declaredLength m = 5 := by
  obtain ⟨rest, rfl⟩ := eq_header_append ha hf hc
  exact if_pos h7

/-- R52, R56: a normal response declares its payload and five bytes more. -/
theorem declaredLength_normal (h7 : f.getLsbD 7 = false) : declaredLength m = 5 + c.toNat := by
  obtain ⟨rest, rfl⟩ := eq_header_append ha hf hc
  exact if_neg (Bool.not_eq_true _ ▸ h7)

end

/-! ## PARSE of a message of five bytes or more -/

section
variable {s : State} {m : List Byte} {a f c : Byte} (h : s.RxHolds m) (ha : m[0]? = some a) (hf : m[1]? = some f)
  (hc : m[2]? = some c)
include h ha hf hc

/-- R93, R94, R102: with the header there, bit 7 of the function selects the branch, and byteCount bounds the normal
one. -/
theorem runParse_header (h5 : 5 ≤ m.length) :
    s.runParse =
      if f.getLsbD 7 then
        s.checkFrame m.length 3 2 a f .protocolException (badExceptionStatus s.params.excBadCrc)
      else if m.length < hdrLen + c.toNat + crcLen then .next (s.report .frameTooShort none).finish
      else s.checkFrame m.length (hdrLen + c.toNat) hdrLen a f .ok .crcMismatch := by
  have hn : ¬m.length < respMin := Nat.not_lt.mpr h5
  simp only [State.runParse, h.rxLength, h.rxByte ha, h.rxByte hf, h.rxByte hc, andThen_next, hn, if_false]

/-- R94, R102 (b): a normal response cut short of the frame it declares. -/
theorem runParse_cut (h5 : 5 ≤ m.length) (hL : m.length < declaredLength m) :
    s.runParse = .next (s.report .frameTooShort none).finish := by
  have h7 : f.getLsbD 7 = false := by
    by_contra h7
    have hd := declaredLength_exception ha hf hc (by simpa using h7)
    omega
  have hd := declaredLength_normal ha hf hc h7
  have hcut : m.length < hdrLen + c.toNat + crcLen := by simp only [hdrLen, crcLen]; omega
  rw [runParse_header h ha hf hc h5, h7, if_neg Bool.false_ne_true, if_pos hcut]

/-- R93, R94: on a whole frame the two branches are one: what is covered is the declared frame up to its CRC. -/
theorem runParse_complete (hL : declaredLength m ≤ m.length) :
    s.runParse = s.checkFrame m.length (declaredLength m - 2) (payloadAt f) a f (goodStatus f)
      (badStatus s.params.excBadCrc f) := by
  rw [runParse_header h ha hf hc ((five_le_declaredLength m).trans hL), payloadAt, goodStatus, badStatus]
  cases h7 : f.getLsbD 7 with
  | true =>
    rw [declaredLength_exception ha hf hc h7]
    rfl
  | false =>
    have hd := declaredLength_normal ha hf hc h7
    have hk : declaredLength m - 2 = hdrLen + c.toNat := by simp only [hdrLen]; omega
    have hwhole : ¬m.length < hdrLen + c.toNat + crcLen := by simp only [hdrLen, crcLen]; omega
    rw [hk, if_neg Bool.false_ne_true, if_neg hwhole]
    rfl

/-- R95: a message longer than its frame has no result under the policy `refuse` [9]. -/
theorem runParse_trailing (hL : declaredLength m < m.length) (hp : s.params.trailingPolicy = .refuse) :
    s.runParse = .refused .trailingInput := by
  have h5 := five_le_declaredLength m
  have hlong : declaredLength m - 2 + crcLen < m.length := by simp only [crcLen]; omega
  rw [runParse_complete h ha hf hc hL.le, State.checkFrame, if_pos ⟨hp, hlong⟩]

/-- R93, R94, R95: PARSE of a whole frame delivers the outcome of the covered bytes and the CRC at the place the policy
names. -/
theorem runParse_delivers (hL : declaredLength m ≤ m.length)
    (hp : s.params.trailingPolicy = .refuse → m.length = declaredLength m) {lo hi : Byte}
    (hlo : m[crcPosition s.params.trailingPolicy m.length (declaredLength m - 2)]? = some lo)
    (hhi : m[crcPosition s.params.trailingPolicy m.length (declaredLength m - 2) + 1]? = some hi) :
    ∃ t, s.runParse = .next t ∧
      Delivered (frameOutcome s.params.excBadCrc a f (m.take (declaredLength m - 2)) (le16 lo hi)) s t := by
  have hfit : ¬(s.params.trailingPolicy = .refuse ∧ declaredLength m - 2 + crcLen < m.length) := by
    rintro ⟨hr, hlong⟩
    have := hp hr
    simp only [crcLen] at hlong
    omega
  have hcovered := h.rxBytes (n := declaredLength m - 2) (by omega)
  rw [runParse_complete h ha hf hc hL]
  exact checkFrame_delivers hfit (h.rxLe16 hlo hhi) hcovered

end

/-! ## The outcome table -/

/-- R97: the rows of an exception response of exactly five bytes. -/
theorem expectedParse_exception {f : Byte} (h7 : f.getLsbD 7 = true) (a e lo hi : Byte) :
    expectedParse [a, f, e, lo, hi] = frameOutcome .crcMismatch a f [a, f, e] (le16 lo hi) := by
  by_cases hcrc : crc16 [a, f, e] = le16 lo hi
  · rw [frameOutcome_good hcrc]
    simp only [expectedParse, goodStatus, payloadAt, h7, hcrc, if_true]
    rfl
  · rw [frameOutcome_bad hcrc]
    simp only [expectedParse, badStatus, h7, hcrc, if_true, if_false]
    rfl

/-- R97: the rows of a normal response that is exactly as long as it declares. -/
theorem expectedParse_normal {f c : Byte} {payload : List Byte} (h7 : f.getLsbD 7 = false)
    (hlen : payload.length = c.toNat) (a lo hi : Byte) :
    expectedParse (a :: f :: c :: (payload ++ [lo, hi])) =
      frameOutcome .crcMismatch a f (a :: f :: c :: payload) (le16 lo hi) := by
  have hdrop : (a :: f :: c :: (payload ++ [lo, hi])).drop (3 + c.toNat) = [lo, hi] := by
    rw [← hlen, Nat.add_comm]
    exact List.drop_left
  have htake : (a :: f :: c :: (payload ++ [lo, hi])).take (3 + c.toNat) = a :: f :: c :: payload := by
    rw [← hlen, Nat.add_comm]
    exact congrArg (a :: f :: c :: ·) List.take_left
  obtain ⟨x, y, tail, hxy⟩ : ∃ x y tail, payload ++ [lo, hi] = x :: y :: tail := by
    match payload with
    | [] => exact ⟨_, _, _, rfl⟩
    | [b] => exact ⟨_, _, _, rfl⟩
    | b :: b' :: p => exact ⟨_, _, _, rfl⟩
  rw [hxy] at hdrop htake ⊢
  by_cases hcrc : crc16 (a :: f :: c :: payload) = le16 lo hi
  · rw [frameOutcome_good hcrc]
    simp only [expectedParse, h7, hdrop, htake, goodStatus, payloadAt, hcrc, Bool.false_eq_true, if_true, if_false]
    rfl
  · rw [frameOutcome_bad hcrc]
    simp only [expectedParse, h7, hdrop, htake, badStatus, hcrc, Bool.false_eq_true, if_false]
    rfl

/-- R97: the table's outcome for a whole frame is that of its covered bytes and its last two. -/
theorem expectedParse_complete {m : List Byte} {a f c : Byte} (ha : m[0]? = some a) (hf : m[1]? = some f)
    (hc : m[2]? = some c) (hL : declaredLength m ≤ m.length) (lo hi : Byte) :
    expectedParse (m.take (declaredLength m - 2) ++ [lo, hi]) =
      frameOutcome .crcMismatch a f (m.take (declaredLength m - 2)) (le16 lo hi) := by
  cases h7 : f.getLsbD 7 with
  | true =>
    rw [declaredLength_exception ha hf hc h7, take_header ha hf hc]
    exact expectedParse_exception h7 a c lo hi
  | false =>
    have hd := declaredLength_normal ha hf hc h7
    have hk : 5 + c.toNat - 2 = c.toNat + 3 := by omega
    rw [hd] at hL
    obtain ⟨rest, rfl⟩ := eq_header_append ha hf hc
    have hlen : (rest.take c.toNat).length = c.toNat := by
      simp only [List.length_cons] at hL
      exact List.length_take_of_le (by omega)
    rw [hd, hk]
    exact expectedParse_normal h7 hlen a lo hi

/-! ## The frame each policy looks at -/

/-- The two bytes at an index, as the message holds them. -/
theorem take_two_drop {m : List Byte} {p : Nat} {lo hi : Byte} (hlo : m[p]? = some lo) (hhi : m[p + 1]? = some hi) :
    (m.drop p).take 2 = [lo, hi] := by
  rw [List.take_add_one, List.take_add_one]
  simp [hlo, hhi]

/-- R95: the CRC's place lies inside the message, under every policy. -/
theorem crcPosition_le {policy : TrailingPolicy} {n k : Nat} (h : k + 2 ≤ n) : crcPosition policy n k + 2 ≤ n := by
  cases policy with
  | framePositioned => exact h
  | bufferEnd => exact (Nat.sub_add_cancel (by omega)).le
  | refuse => exact h

/-- R95: in a message exactly as long as its frame every policy finds the CRC at one place. -/
theorem crcPosition_exact (policy : TrailingPolicy) (n : Nat) : crcPosition policy n (n - 2) = n - 2 := by
  cases policy <;> rfl

/-- R95, R97: PARSE of a whole frame has the outcome of the table for the frame's covered bytes followed by the two bytes
the policy takes for its CRC. -/
theorem parse_expected {s : State} {m : List Byte} (h : s.RxHolds m) (hexc : s.params.excBadCrc = .crcMismatch)
    (hL : declaredLength m ≤ m.length) (hp : s.params.trailingPolicy = .refuse → m.length = declaredLength m) :
    ∃ t, exec .parse s = .next t ∧ Delivered (expectedParse (m.take (declaredLength m - 2) ++
      (m.drop (crcPosition s.params.trailingPolicy m.length (declaredLength m - 2))).take 2)) s t := by
  have h5 := five_le_declaredLength m
  obtain ⟨a, f, c, ha, hf, hc⟩ := exists_header (h5.trans hL)
  have hk : declaredLength m - 2 + 2 ≤ m.length := by omega
  have hplace := crcPosition_le (policy := s.params.trailingPolicy) hk
  have hlo := List.getElem?_eq_getElem (Nat.lt_of_add_right_lt (Nat.lt_of_succ_le hplace))
  have hhi := List.getElem?_eq_getElem (Nat.lt_of_succ_le hplace)
  rw [take_two_drop hlo hhi, expectedParse_complete ha hf hc hL, ← hexc]
  exact runParse_delivers h ha hf hc hL hp hlo hhi

/-- Settles O22: cut short, exact or longer, and then by policy. -/
theorem parseLongerInput : Obligations.ParseLongerInput := by
  intro s m h h5 hexc
  obtain ⟨a, f, c, ha, hf, hc⟩ := exists_header h5
  have hd := five_le_declaredLength m
  have hlast : (m.drop (m.length - 2)).length ≤ 2 := by rw [List.length_drop]; omega
  refine ⟨fun hcut => ?_, fun hexact => ?_, fun hlong hp => ?_, fun hlong hp => ?_,
    fun hlong hp => runParse_trailing h ha hf hc hlong hp⟩
  · exact ⟨_, runParse_cut h ha hf hc h5 hcut, report_delivered rfl (.frameTooShort, none)⟩
  · have hframe := parse_expected h hexc hexact.le fun _ => hexact.symm
    rwa [hexact, crcPosition_exact, List.take_of_length_le hlast, List.take_append_drop] at hframe
  · have hframe := parse_expected h hexc hlong.le (by simp [hp])
    rwa [hp, crcPosition, ← List.take_add, Nat.sub_add_cancel (by omega)] at hframe
  · have hframe := parse_expected h hexc hlong.le (by simp [hp])
    rwa [hp, crcPosition, List.take_of_length_le hlast] at hframe

/-! ## Exception responses -/

/-- R93, R95: PARSE of an exception response delivers the outcome of its three bytes and the CRC at the place the policy
names. -/
theorem runParse_exception_delivers {s : State} {m : List Byte} {a f e x y : Byte} (h : s.RxHolds m)
    (h5 : 5 ≤ m.length) (ha : m[0]? = some a) (hf : m[1]? = some f) (he : m[2]? = some e) (h7 : f.getLsbD 7 = true)
    (hp : s.params.trailingPolicy = .refuse → m.length = 5)
    (hx : m[crcPosition s.params.trailingPolicy m.length 3]? = some x)
    (hy : m[crcPosition s.params.trailingPolicy m.length 3 + 1]? = some y) :
    ∃ t, s.runParse = .next t ∧ Delivered (frameOutcome s.params.excBadCrc a f [a, f, e] (le16 x y)) s t := by
  have hd := declaredLength_exception ha hf he h7
  have hk : declaredLength m - 2 = 3 := by rw [hd]
  rw [← take_header ha hf he, ← hk]
  rw [← hk] at hx hy
  exact runParse_delivers h ha hf he (hd ▸ h5) (fun hr => hd ▸ hp hr) hx hy

/-- R93: the outcome of an exception response whose CRC is right. -/
theorem frameOutcome_exception_good {f : Byte} (h7 : f.getLsbD 7 = true) {excBadCrc : ExcBadCrc} {a e : Byte}
    {received : Half} (hcrc : crc16 [a, f, e] = received) : frameOutcome excBadCrc a f [a, f, e] received =
      (.protocolException, some ⟨a, f, [e], received⟩) := by
  rw [frameOutcome_good hcrc, goodStatus, payloadAt, if_pos h7, if_pos h7]
  rfl

/-- D7: the outcome of an exception response whose CRC is wrong, for each value of `EXC_BAD_CRC` [8]. -/
theorem frameOutcome_exception_bad {f : Byte} (h7 : f.getLsbD 7 = true) {a e : Byte} {received : Half}
    (hcrc : crc16 [a, f, e] ≠ received) :
    frameOutcome .crcMismatch a f [a, f, e] received = (.crcMismatch, none) ∧
    frameOutcome .protocolException a f [a, f, e] received =
      (.protocolException, some ⟨a, f, [e], received⟩) := by
  constructor
  · rw [frameOutcome_bad hcrc, badStatus, if_pos h7]
    rfl
  · rw [frameOutcome_bad hcrc, badStatus, payloadAt, if_pos h7, if_pos h7]
    rfl

/-- R95: the place of an exception response's CRC, by policy. -/
theorem crcPosition_exception (policy : TrailingPolicy) (n : Nat) :
    crcPosition policy n 3 = if policy = .bufferEnd then n - 2 else 3 := by
  cases policy <;> rfl

/-- Settles O23: one delivery, and the outcome each value of `EXC_BAD_CRC` gives it. -/
theorem exceptionBadCrc : Obligations.ExceptionBadCrc := by
  intro s m a f e x y h h5 ha hf he h7 hp hcrcAt hcrc
  obtain ⟨hx, hy⟩ := hcrcAt
  rw [← crcPosition_exception] at hx hy
  obtain ⟨hdefault, hother⟩ := frameOutcome_exception_bad h7 hcrc
  have hdel := runParse_exception_delivers h h5 ha hf he h7 hp hx hy
  exact ⟨fun hexc => by rwa [hexc, hdefault] at hdel, fun hexc => by rwa [hexc, hother] at hdel⟩

/-- R35, R54: a CRC's two bytes, low byte first, are the CRC. -/
theorem le16_lo8_hi8 (v : Half) : le16 (lo8 v) (hi8 v) = v := by
  rw [le16, hi8, lo8, BitVec.extractLsb'_append_extractLsb'_eq_extractLsb' (by rfl)]
  exact BitVec.extractLsb'_eq_self

/-- Settles O28: the presented frame is parsed, and PARSE leaves what it does not write. -/
theorem exceptionResponseParsed : Obligations.ExceptionResponseParsed := by
  intro s a f e crc h7 hmax u
  have hrx : u.RxHolds (exceptionBytes a f e crc) := State.presentRx_holds _ hmax
  have hplace : crcPosition u.params.trailingPolicy 5 3 = 3 := crcPosition_exact _ 5
  obtain ⟨t, ht, hdel⟩ := runParse_exception_delivers hrx (le_refl 5) rfl rfl rfl h7 (fun _ => rfl)
    (congrArg (fun p => (exceptionBytes a f e crc)[p]?) hplace)
    (congrArg (fun p => (exceptionBytes a f e crc)[p + 1]?) hplace)
  have hout := hdel.of_frame (s := s) rfl
  rw [le16_lo8_hi8] at hout
  refine ⟨t, ht, fun hcrc => ?_, fun hcrc hexc => ?_, fun hcrc hexc => ?_, runParse_frame ht⟩
  · rwa [frameOutcome_exception_good h7 hcrc] at hout
  · rwa [show u.params.excBadCrc = _ from hexc, (frameOutcome_exception_bad h7 hcrc).1] at hout
  · rwa [show u.params.excBadCrc = _ from hexc, (frameOutcome_exception_bad h7 hcrc).2] at hout

end Sys2Proof.Machine
end

section
/-!
PROOF. The invariant of the machine (R14, R16, R23, R30, R31): the reset state has it, and every instruction, every host
action and so every step keeps it.
-/

namespace Sys2Proof.Machine

/-! ## What PARSE leaves in its results -/

/-- R14: the payload of a Frame PARSE delivers is all there. -/
theorem GoodFrame.payload_length {o : Status} {g : Frame} (h : GoodFrame o g) : g.payload.length = g.dataLen := by
  obtain ⟨⟨payload, hdata, hlen, -⟩, -⟩ := h
  rw [Frame.payload, hdata, hlen, Memory.range_ofBytes]

/-- R14, R30: the payload of a Frame PARSE delivers is canonical and inside `frame.data`. -/
theorem GoodFrame.data_fits {o : Status} {g : Frame} (h : GoodFrame o g) :
    (g.data.wf ∧ g.data.within 255) ∧ g.dataLen ≤ 255 := by
  obtain ⟨⟨payload, hdata, hlen, hle⟩, -⟩ := h
  rw [hdata, hlen]
  exact ⟨⟨Memory.ofBytes_wf _, Memory.ofBytes_within hle⟩, hle⟩

/-- R14, R23, R164: PARSE ends the handshake and leaves one outcome, and a Frame exactly when R14 gives one with
it; the Frame latches keep their bits otherwise. -/
theorem runParse_outcome {s t : State} (h : s.runParse = .next t) : t.start = false ∧ ∃ o : Status,
    t.status = Latch.holding o ∧ t.frameValid = o.givesFrame ∧ (t.frameValid = true → GoodFrame o t.frame) ∧
    (t.frameValid = false → t.frame = s.frame) := by
  obtain ⟨s1, o, f, rfl, hs1, hf, hgood⟩ := runParse_reports h
  have hframe : s1.frame = s.frame := by
    obtain rfl | ⟨acc, k, rfl⟩ := hs1
    · rfl
    · rfl
  refine ⟨rfl, o, report_status .., (report_frameValid ..).trans hf, ?_⟩
  cases f with
  | none => exact ⟨nofun, fun _ => hframe⟩
  | some g => exact ⟨fun _ => hgood g rfl, nofun⟩

/-- R31: PARSE answers a next state only for a count within `RX_MAX`. -/
theorem runParse_rxLen_le {s t : State} (h : s.runParse = .next t) : s.rxLen.value ≤ s.params.rxMax := by
  obtain ⟨n, hn, -⟩ := runParse_next.mp h
  obtain ⟨hlen, hle⟩ := State.rxLength_eq_next.mp hn
  rwa [hlen]

theorem givesFrame_iff {o : Status} : o.givesFrame = true ↔ o = .ok ∨ o = .protocolException := by
  cases o <;> decide

/-- R15: the number 3 is ProtocolException's. -/
theorem status_code_eq_three {o : Status} : o.code = 3#2 ↔ o = .protocolException := by
  cases o <;> decide

theorem Latch.holding_inj {α : Type} {v w : α} : Latch.holding v = Latch.holding w ↔ v = w :=
  ⟨congrArg Latch.value, congrArg Latch.holding⟩

/-! ## What keeps the invariant -/

/-- The reset latches meet the invariant under every parameter. -/
theorem resetBlock_inv (s : State) : s.resetBlock.Inv :=
  ⟨⟨.nil, nofun⟩, ⟨.nil, nofun⟩, ⟨.nil, nofun⟩, Nat.zero_le _, Nat.zero_le _, nofun, rfl, nofun, nofun⟩

theorem finish_inv {s : State} (h : s.Inv) : s.finish.Inv := by
  obtain ⟨hrx, htx, hdata, hlen, hdataLen, hpayload, hvalid, hflag, -⟩ := h
  exact ⟨hrx, htx, hdata, hlen, hdataLen, hpayload, hvalid, hflag, nofun⟩

/-- R23: asserting `start` keeps the invariant, since it clears `done` [3]. -/
theorem started_inv {s : State} (h : s.Inv) : ({ s with start := true, done := false } : State).Inv := by
  obtain ⟨hrx, htx, hdata, hlen, hdataLen, hpayload, hvalid, hflag, -⟩ := h
  exact ⟨hrx, htx, hdata, hlen, hdataLen, hpayload, hvalid, hflag, fun _ => rfl⟩

/-- Writing operand latches keeps the invariant. -/
theorem OperandWrite.inv {s t : State} (hw : OperandWrite s t) (h : s.Inv) : t.Inv := by
  obtain ⟨hparams, hstart, hdone, -, -, -, -, htx, hstatus, hvalid, hframe, -, -, -, -, hwf, hwithin, hlen⟩ := hw
  obtain ⟨⟨hrxwf, hrxin⟩, hrest⟩ := h
  obtain ⟨htx', hdata, hrxlen, hrest⟩ := hrest
  rw [State.Inv, State.exceptionFlag, hparams, hstart, hdone, htx, hstatus, hvalid, hframe]
  exact ⟨⟨hwf hrxwf, hwithin hrxin⟩, htx', hdata, hlen hrxlen, hrest⟩

/-- R30, R80: BUILD's eight bytes are canonical and inside `TX`. -/
theorem runBuild_inv {s t : State} (hs : s.Inv) (h : s.runBuild = .next t) : t.Inv := by
  obtain ⟨a, x, q, -, -, -, rfl⟩ := runBuild_next.mp h
  obtain ⟨hrx, -, hrest⟩ := hs
  have hbytes : (requestBytes a x q).length ≤ reqLen := le_refl 8
  exact finish_inv ⟨hrx, ⟨Memory.ofBytes_wf _, Memory.ofBytes_within hbytes⟩, hrest⟩

/-- R14, R16: PARSE leaves the Frame latches in step with the status it reports. -/
theorem runParse_inv {s t : State} (hs : s.Inv) (h : s.runParse = .next t) : t.Inv := by
  obtain ⟨hstart, o, hstatus, hvalid, hgood, hold⟩ := runParse_outcome h
  obtain ⟨hrx, htx, hdata, hlen, hdataLen, -⟩ := hs
  have hfits : (t.frame.data.wf ∧ t.frame.data.within 255) ∧ t.frame.dataLen ≤ 255 := by
    cases hv : t.frameValid with
    | false =>
      rw [hold hv]
      exact ⟨hdata, hdataLen⟩
    | true => exact (hgood hv).data_fits
  have hflag : t.frameValid = true → t.exceptionFlag = decide (t.status.value = .protocolException) := by
    rw [hstatus]
    exact fun hv => (hgood hv).2
  have hagree : t.frameValid = (t.status.held && t.status.value.givesFrame) := by rw [hvalid, hstatus]; rfl
  have hrxSame : t.rx = s.rx := by rw [runParse_frame h]
  have htxSame : t.tx = s.tx := by rw [runParse_frame h]
  have hlenSame : t.rxLen = s.rxLen := by rw [runParse_frame h]
  obtain ⟨hdata, hdataLen⟩ := hfits
  rw [State.Inv, runParse_params h, hrxSame, htxSame, hlenSame, hstart]
  exact ⟨hrx, htx, hdata, hlen, hdataLen, fun hv => (hgood hv).payload_length, hagree, hflag, nofun⟩

/-- A response frame as an instruction keeps the invariant: it completes only when its bytes fit into `RX` [10], [23]. -/
theorem presentedParse_inv {s t : State} {m : List Byte} (hs : s.Inv)
    (h : ((s.presentOp 2#3).presentRx m).runParse = .next t) : t.Inv := by
  have hfit : m.length ≤ s.params.rxMax := runParse_rxLen_le h
  exact runParse_inv ((presentRx_write (s.presentOp 2#3) hfit).inv hs) h

/-- Every instruction keeps the invariant. -/
theorem exec_inv {i : Instr} {s t : State} (hs : s.Inv) (h : exec i s = .next t) : t.Inv := by
  cases i with
  | crc16 =>
    obtain ⟨m, -, rfl⟩ := execCrc16_next.mp h
    exact finish_inv hs
  | build => exact runBuild_inv hs h
  | parse => exact runParse_inv hs h
  | f32swap =>
    obtain ⟨r, -, rfl⟩ := execF32swap_next.mp h
    exact finish_inv hs
  | isvalid =>
    obtain ⟨w, -, rfl⟩ := execIsvalid_next.mp h
    exact finish_inv hs
  | decode =>
    obtain ⟨p, -, -, rfl⟩ := execDecode_next.mp h
    exact finish_inv hs
  | reserved6 => cases h
  | reserved7 => cases h
  | crcInit => cases h; exact hs
  | crcByte b => cases h; exact hs
  | crcBit => cases h; exact hs
  | req a x q crc => exact runBuild_inv (s := (s.presentOp 1#3).presentRequest a x q) hs h
  | rsp a f data crc => exact presentedParse_inv hs h
  | exc a f e crc => exact presentedParse_inv hs h

theorem presentCode_inv {s : State} (h : s.Inv) (c : Code) : (s.presentCode c).Inv := by
  cases c <;> exact h

/-- Every host action keeps the invariant. -/
theorem drive_inv {s t : State} {a : HostAct} (hs : s.Inv) (h : s.drive a = .next t) : t.Inv := by
  obtain hw | ⟨-, -, rfl⟩ | ⟨-, rfl⟩ | ⟨-, rfl⟩ | ⟨c, i, -, -, -, hi⟩ := drive_cases h
  · exact hw.inv hs
  · exact started_inv hs
  · exact hs
  · exact resetBlock_inv s
  · exact exec_inv (presentCode_inv hs c) hi

/-- Settles O46: the reset state is a reset of itself. -/
theorem invAtReset : Obligations.InvAtReset := resetBlock_inv State.reset

/-- Settles O47, by the cases of one step. -/
theorem stepKeepsInv : Obligations.StepKeepsInv := by
  intro s t hs h
  obtain ⟨-, -, rfl⟩ | ⟨-, rest, -, rfl⟩ | ⟨-, h⟩ | ⟨a, rest, -, -, h⟩ := step_cases h
  · exact hs
  · exact hs
  · obtain ⟨bits, -, h⟩ := runStarted_next.mp h
    exact exec_inv hs h
  · exact drive_inv (s := { s with inputs := rest }) hs h

/-- Settles O29: the outcome PARSE leaves, and the Frame that comes with it. -/
theorem exceptionFlagAgrees : Obligations.ExceptionFlagAgrees := by
  intro s t h
  obtain ⟨-, o, hstatus, hvalid, hgood, -⟩ := runParse_outcome h
  rw [hstatus, Latch.holding_inj, Latch.holding_inj, Latch.holding_value, status_code_eq_three]
  refine ⟨hvalid ▸ givesFrame_iff, fun hv => ?_⟩
  obtain ⟨-, hflag⟩ := hgood hv
  rw [State.exceptionFlag, hflag, decide_eq_true_iff]

end Sys2Proof.Machine
end

section
/-!
PROOF. Operands that hold no value (R21, D9): each operation stops at the first one it reads [2].
-/

namespace Sys2Proof.Machine

@[simp] theorem andThen_fault {α β : Type} (e : Fault) (f : α → Res β) : andThen (.fault e) f = .fault e := rfl

theorem Latch.operand_missing {α : Type} {l : Latch α} {name : OperandLatch} (h : l.held = false) :
    l.operand name = .fault (.operandNoValue name) := by
  simp [Latch.operand, h]

theorem rxLength_missing {s : State} (h : s.rxLen.held = false) :
    s.rxLength = .fault (.operandNoValue .rxLen) := by
  rw [State.rxLength, Latch.operand_missing h, andThen_fault]

/-! ## CRC16 and BUILD -/

/-- Reading `RX` from index 0 stops at the first byte that holds no value. -/
theorem rxBytes_zero_missing {s : State} {n i : Nat} (hi : i < n) (hmissing : s.rx.read i = none)
    (hbefore : ∀ j, j < i → (s.rx.read j).isSome) : s.rxBytes 0 n = .fault (.operandNoValue (.rx i)) := by
  have hbytes := State.rxBytes_missing (s := s) (a := 0) hi
  simp only [Nat.zero_add] at hbytes
  exact hbytes hmissing hbefore

/-- R70: CRC16 reads its message upwards. -/
theorem execCrc16_missing_byte {s : State} {n i : Nat} (hn : s.rxLength = .next n) (hi : i < n)
    (hmissing : s.rx.read i = none) (hbefore : ∀ j, j < i → (s.rx.read j).isSome) :
    execCrc16 s = .fault (.operandNoValue (.rx i)) := by
  rw [execCrc16, hn, andThen_next, rxBytes_zero_missing hi hmissing hbefore, andThen_fault]

/-- R80: BUILD reads `slave`, `start_addr` and `quantity` in this order. -/
theorem runBuild_missing {s : State} :
    (s.slave.held = false → s.runBuild = .fault (.operandNoValue .slave)) ∧
    (s.slave.held = true → s.startAddr.held = false → s.runBuild = .fault (.operandNoValue .startAddr)) ∧
    (s.slave.held = true → s.startAddr.held = true → s.quantity.held = false →
      s.runBuild = .fault (.operandNoValue .quantity)) := by
  refine ⟨fun ha => ?_, fun ha hx => ?_, fun ha hx hq => ?_⟩
  · rw [State.runBuild, Latch.operand_missing ha, andThen_fault]
  · rw [State.runBuild, Latch.eq_holding ha, Latch.operand_holding, andThen_next, Latch.operand_missing hx,
      andThen_fault]
  · rw [State.runBuild, Latch.eq_holding ha, Latch.operand_holding, andThen_next, Latch.eq_holding hx,
      Latch.operand_holding, andThen_next, Latch.operand_missing hq, andThen_fault]

/-! ## PARSE -/

/-- R95: the place of the received CRC, by policy. -/
theorem crcPosition_eq (policy : TrailingPolicy) (n k : Nat) :
    crcPosition policy n k = if policy = .bufferEnd then n - 2 else k := by
  cases policy <;> rfl

section
variable {s : State} {n : Nat} (hn : s.rxLength = .next n) (h5 : respMin ≤ n)
include hn h5

/-- R102: of five bytes or more PARSE reads the slave first. -/
theorem runParse_missing_slave (h0 : s.rx.read 0 = none) : s.runParse = .fault (.operandNoValue (.rx 0)) := by
  rw [State.runParse, hn, andThen_next, if_neg (Nat.not_lt.mpr h5), State.rxByte_missing h0, andThen_fault]

variable {a : Byte} (ha : s.rxByte 0 = .next a)
include ha

theorem runParse_missing_function (h1 : s.rx.read 1 = none) : s.runParse = .fault (.operandNoValue (.rx 1)) := by
  rw [State.runParse, hn, andThen_next, if_neg (Nat.not_lt.mpr h5), ha, andThen_next, State.rxByte_missing h1,
    andThen_fault]

variable {f : Byte} (hf : s.rxByte 1 = .next f)
include hf

/-- R94: only the normal branch reads byteCount. -/
theorem runParse_missing_byteCount (h7 : f.getLsbD 7 = false) (h2 : s.rx.read 2 = none) :
    s.runParse = .fault (.operandNoValue (.rx 2)) := by
  rw [State.runParse, hn, andThen_next, if_neg (Nat.not_lt.mpr h5), ha, andThen_next, hf, andThen_next, h7,
    if_neg Bool.false_ne_true, State.rxByte_missing h2, andThen_fault]

/-- R93, R94: with its header read and `k` covered bytes inside the input, either branch of PARSE goes on to the CRC. -/
theorem runParse_checks {k : Nat} (hk : f.getLsbD 7 = true ∧ k = 3 ∨
      f.getLsbD 7 = false ∧ ∃ c, s.rx.read 2 = some c ∧ k = 3 + c.toNat ∧ k + 2 ≤ n) :
    s.runParse = s.checkFrame n k (payloadAt f) a f (goodStatus f) (badStatus s.params.excBadCrc f) := by
  rw [State.runParse, hn, andThen_next, if_neg (Nat.not_lt.mpr h5), ha, andThen_next, hf, andThen_next, payloadAt,
    goodStatus, badStatus]
  obtain ⟨h7, rfl⟩ | ⟨h7, c, hc, rfl, hfit⟩ := hk
  · simp only [h7, if_true]
  · have hwhole : ¬n < hdrLen + c.toNat + crcLen := Nat.not_lt.mpr hfit
    rw [h7, if_neg Bool.false_ne_true, State.rxByte_eq_next.mpr hc, andThen_next, if_neg hwhole]
    rfl

end

/-- R93 to R95: the end of PARSE reads the two CRC bytes where the policy places them, then the covered bytes upwards. -/
theorem checkFrame_missing {s : State} {n k payload p : Nat} {a f : Byte} {good bad : Status}
    (hfit : s.params.trailingPolicy = .refuse → n = k + 2)
    (hp : crcPosition s.params.trailingPolicy n k = p) :
    (s.rx.read p = none → s.checkFrame n k payload a f good bad = .fault (.operandNoValue (.rx p))) ∧
    ((s.rx.read p).isSome → s.rx.read (p + 1) = none →
      s.checkFrame n k payload a f good bad = .fault (.operandNoValue (.rx (p + 1)))) ∧
    ((s.rx.read p).isSome → (s.rx.read (p + 1)).isSome → ∀ i, i < k → s.rx.read i = none →
      (∀ j, j < i → (s.rx.read j).isSome) →
      s.checkFrame n k payload a f good bad = .fault (.operandNoValue (.rx i))) := by
  have hread : ¬(s.params.trailingPolicy = .refuse ∧ k + crcLen < n) := by
    rintro ⟨hr, hlong⟩
    exact hlong.ne (hfit hr).symm
  rw [State.checkFrame, if_neg hread, hp]
  refine ⟨fun hlo => ?_, fun hlo hhi => ?_, fun hlo hhi i hi hmissing hbefore => ?_⟩
  · rw [State.rxLe16_missing.1 hlo, andThen_fault]
  · rw [State.rxLe16_missing.2 hlo hhi, andThen_fault]
  · obtain ⟨low, hlo⟩ := Option.isSome_iff_exists.mp hlo
    obtain ⟨high, hhi⟩ := Option.isSome_iff_exists.mp hhi
    rw [State.rxLe16_eq_next.mpr ⟨low, high, hlo, hhi, rfl⟩, andThen_next, rxBytes_zero_missing hi hmissing hbefore,
      andThen_fault]

/-! ## DECODE -/

theorem laneNumbers_eq_finRange : laneNumbers = List.finRange 8 := by decide

/-- R115: the lane DECODE could not read is the first present one without bytes. -/
theorem missingLane_eq_some {s : State} {present : BitVec 8} {k : Fin 8} (hk : present.getLsbD k.val = true)
    (hmissing : (s.laneRaw.get k).held = false)
    (hbefore : ∀ j : Fin 8, j < k → present.getLsbD j.val = true → (s.laneRaw.get j).held = true) :
    s.missingLane present = some k := by
  rw [State.missingLane, laneNumbers_eq_finRange, List.find?_eq_some_iff_getElem]
  refine ⟨by simp [hk, hmissing], k.val, by simp, by simp, fun j hj => ?_⟩
  rw [List.getElem_finRange]
  cases hp : present.getLsbD j with
  | false => simp [hp]
  | true =>
    have hheld := hbefore ⟨j, hj.trans k.isLt⟩ hj hp
    simp [hheld]

/-- Settles O34, operation by operation. -/
theorem missingOperandFaults : Obligations.MissingOperandFaults := by
  intro s
  have hlength {n : Nat} (hn : s.rxLen = Latch.holding n) (hle : n ≤ s.params.rxMax) : s.rxLength = .next n :=
    State.rxLength_eq_next.mpr ⟨hn, hle⟩
  obtain ⟨hslave, hstartAddr, hquantity⟩ := runBuild_missing (s := s)
  refine ⟨fun hn => ⟨?_, ?_⟩, fun n i hn hle => execCrc16_missing_byte (hlength hn hle), fun n hn hle h5 => ?_,
    hslave, hstartAddr, hquantity, fun hraw => ?_, fun hword => ?_, fun hpresent => ?_,
    fun hpresent k hk hmissing hbefore => ?_, fun hop hs hwait => ?_⟩
  · rw [exec, execCrc16, rxLength_missing hn, andThen_fault]
  · rw [exec, execParse, State.runParse, rxLength_missing hn, andThen_fault]
  · replace hn := hlength hn hle
    refine ⟨runParse_missing_slave hn h5, fun h0 h1 => ?_, fun f h0 h1 => ?_⟩
    all_goals
      obtain ⟨a, h0⟩ := Option.isSome_iff_exists.mp h0
      replace h0 := State.rxByte_eq_next.mpr h0
    · exact runParse_missing_function hn h5 h0 h1
    · replace h1 := State.rxByte_eq_next.mpr h1
      refine ⟨runParse_missing_byteCount hn h5 h0 h1, fun k hk hfit => ?_⟩
      have hchecks : exec .parse s = _ := runParse_checks hn h5 h0 h1 hk
      rw [hchecks]
      exact checkFrame_missing hfit (crcPosition_eq ..)
  · rw [exec, execF32swap, Latch.operand_missing hraw, andThen_fault]
  · rw [exec, execIsvalid, Latch.operand_missing hword, andThen_fault]
  · rw [exec, execDecode, Latch.operand_missing hpresent, andThen_fault]
  · rw [exec, execDecode, Latch.eq_holding hpresent, Latch.operand_holding, andThen_next,
      missingLane_eq_some hk hmissing hbefore]
  · rw [step_started hs hwait, State.runStarted, Latch.operand_missing hop, andThen_fault]

end Sys2Proof.Machine
end

section
/-!
PROOF. What an operation writes (R22, R164): its own result latches, the handshake's end, and no operand.
-/

namespace Sys2Proof.Machine

/-- R30: beyond its bytes a buffer holds no value. -/
theorem Memory.read_of_within {m : Memory} {n a : Nat} (h : m.within n) (ha : n ≤ a) : m.read a = none := by
  induction m with
  | nil => rfl
  | cons x m ih =>
    obtain ⟨hx, hm⟩ := List.forall_mem_cons.mp h
    rw [Memory.read, if_neg (hx.trans_le ha).ne, ih hm]

/-- R22, R80: BUILD stores `TX[0..8)` and nothing above. -/
theorem runBuild_tx_above {s t : State} (h : s.runBuild = .next t) (htx : s.tx.within 8) {a : Nat} (ha : 8 ≤ a) :
    t.tx.read a = s.tx.read a := by
  obtain ⟨slave, x, q, -, -, -, rfl⟩ := runBuild_next.mp h
  have hbytes : (requestBytes slave x q).length ≤ 8 := le_refl 8
  exact (Memory.read_of_within (Memory.ofBytes_within hbytes) ha).trans (Memory.read_of_within htx ha).symm

/-- Settles O35, operation by operation: each answers the state it ran on with its own results written. -/
theorem operationsWriteOnlyResults : Obligations.OperationsWriteOnlyResults := by
  intro i s t hop h
  cases i with
  | crc16 =>
    obtain ⟨m, -, rfl⟩ := execCrc16_next.mp h
    simp [SameOperands]
  | build =>
    have habove := runBuild_tx_above h
    obtain ⟨a, x, q, -, -, -, rfl⟩ := runBuild_next.mp h
    simpa [SameOperands] using @habove
  | parse =>
    obtain ⟨-, -, -, -, -, hold⟩ := runParse_outcome h
    have hframe (hv : t.frameValid = false) :
        t.frame = s.frame ∧ ∀ a, t.frame.data.read a = s.frame.data.read a := by simp [hold hv]
    rw [runParse_frame h]
    simpa [SameOperands] using hframe
  | f32swap =>
    obtain ⟨r, -, rfl⟩ := execF32swap_next.mp h
    simp [SameOperands]
  | isvalid =>
    obtain ⟨w, -, rfl⟩ := execIsvalid_next.mp h
    simp [SameOperands]
  | decode =>
    obtain ⟨p, -, -, rfl⟩ := execDecode_next.mp h
    simp [SameOperands]
  | reserved6 => cases hop
  | reserved7 => cases hop
  | crcInit => cases hop
  | crcByte b => cases hop
  | crcBit => cases hop
  | req a x q crc => cases hop
  | rsp a f data crc => cases hop
  | exc a f e crc => cases hop

end Sys2Proof.Machine
end

section
/-!
PROOF. The host's side (R11, R23, R186, R188): the handshake, the reads of results and the writes of operands.
-/

namespace Sys2Proof.Machine

/-! ## The handshake and the reads of results -/

/-- Settles O7: the step runs the operation in hand, and `op` names it. -/
theorem startedOperationRuns : Obligations.StartedOperationRuns := by
  intro s bits hs hwait hop
  rw [step_started hs hwait, State.runStarted, hop, Latch.operand_holding, andThen_next]

/-- R23: with `start` at 0 and nothing to do the block idles [21]. -/
theorem step_idle {s : State} (hs : s.start = false) (h : s.inputs = []) : step s = .next s := by
  simp [step, State.advance, h, hs]

/-- R23: with `start` at 0 waiting only takes the action off the host's list [5]. -/
theorem step_wait {s : State} {rest : List HostAct} (hs : s.start = false) (h : s.inputs = .wait :: rest) :
    step s = .next { s with inputs := rest } := by
  simp [step, State.advance, h, hs]

/-- Settles O9, clause by clause. -/
theorem handshake : Obligations.Handshake := by
  intro s rest
  have hstart (hin : s.inputs = .start :: rest) : step s = State.hostStarts { s with inputs := rest } :=
    step_act hin (by simp)
  refine ⟨fun hin hs => ?_, fun hin hs => ?_, fun hin hs => step_wait hs hin, fun hin hs => step_idle hs hin⟩
  · rw [hstart hin]
    exact hostStarts_next.mpr ⟨hs, rfl⟩
  · rw [hstart hin]
    exact if_pos hs

theorem hostReads_early {s : State} {l : ResultLatch} (hl : s.holdsResult l = true) (hd : s.done = false) :
    s.hostReads l = .refused .readBeforeDone := by
  simp [State.hostReads, hl, hd]

theorem hostReads_missing {s : State} {l : ResultLatch} (hl : s.holdsResult l = false) :
    s.hostReads l = .fault (.resultNoValue l) := by
  simp [State.hostReads, hl]

/-- R14: while `frame_valid` is 0 no Frame latch holds a value. -/
theorem holdsResult_frame {s : State} (hv : s.frameValid = false) {l : ResultLatch}
    (hl : l = .frameSlave ∨ l = .frameFunction ∨ (∃ i, l = .frameData i) ∨ l = .frameDataLen ∨ l = .frameCrc) :
    s.holdsResult l = false := by
  obtain rfl | rfl | ⟨i, rfl⟩ | rfl | rfl := hl
  · exact hv
  · exact hv
  · simp [State.holdsResult, hv]
  · exact hv
  · exact hv

/-- Settles O45, by what the latch holds and `done`. -/
theorem resultReads : Obligations.ResultReads := by
  intro s l rest hin
  have hstep : step s = State.hostReads { s with inputs := rest } l := step_act hin (by simp)
  have hholds : State.holdsResult { s with inputs := rest } l = s.holdsResult l := by cases l <;> rfl
  rw [← hholds, hstep]
  refine ⟨fun hl hd => hostReads_next.mpr ⟨hl, hd, rfl⟩, hostReads_early, hostReads_missing, fun hl hd => ?_,
    fun hv hl => hostReads_missing (holdsResult_frame hv hl)⟩
  subst hl
  exact hostReads_next.mpr ⟨rfl, hd, rfl⟩

/-- Settles O50, lane by lane. -/
theorem laneOffsetsFollowMap : Obligations.LaneOffsetsFollowMap := by
  unfold Obligations.LaneOffsetsFollowMap
  decide

/-! ## The writes of operands -/

/-- R31: what is guarded by a capacity answers a next state only within it. -/
theorem guarded_next {c : Prop} [Decidable c] {r : Res State} {e : Refusal} {t : State} :
    (if c then r else .refused e) = .next t ↔ c ∧ r = .next t := by
  split_ifs with hc <;> simp [hc]

/-- R31, R186: a write that fits, of no operand in hand, is carried out. -/
theorem drive_completes {s : State} {a : HostAct} {l : OperandLatch} (hw : a.writes = some l)
    (hfit : a.fits s.params.rxMax) (hread : a.mayRead s) (hfree : s.inHand l = false) :
    ∃ t, s.drive a = .next t := by
  have write (w : State) : s.hostWrites l w = .next w := hostWrites_next.mpr ⟨hfree, rfl⟩
  cases a with
  | setRxByte i b => cases hw; exact ⟨_, guarded_next.mpr ⟨hfit, write _⟩⟩
  | setRxLen n => cases hw; exact ⟨_, guarded_next.mpr ⟨hfit, write _⟩⟩
  | exchange m => cases hw; exact ⟨_, guarded_next.mpr ⟨hfit, write _⟩⟩
  | lanesElec => cases hw; exact ⟨_, hostSlices_next.mpr ⟨hfree, hread (.inl rfl), rfl⟩⟩
  | lanesEnergy => cases hw; exact ⟨_, hostSlices_next.mpr ⟨hfree, hread (.inr rfl), rfl⟩⟩
  | start => cases hw
  | wait => cases hw
  | read l => cases hw
  | reset => cases hw
  | transact c => cases hw
  | _ => cases hw; exact ⟨_, write _⟩

/-- An action that names an operand latch writes operand latches and nothing else. -/
theorem drive_operandWrite {s t : State} {a : HostAct} {l : OperandLatch} (hw : a.writes = some l)
    (h : s.drive a = .next t) : OperandWrite s t := by
  obtain h | ⟨rfl, -⟩ | ⟨rfl | ⟨r, rfl⟩, -⟩ | ⟨rfl, -⟩ | ⟨c, i, rfl, -⟩ := drive_cases h
  · exact h
  all_goals cases hw

/-- R22: a write of operand latches leaves the results. -/
theorem OperandWrite.sameResults {s t : State} (h : OperandWrite s t) : SameResults s t := by
  obtain ⟨-, -, -, -, -, -, hcrcOut, htx, hstatus, hvalid, hframe, hshuf, hwordOut, hvalidBit, hreading, -⟩ := h
  exact ⟨hcrcOut.symm, fun a => by rw [htx], hstatus.symm, hvalid.symm, hframe.symm, hshuf.symm, hwordOut.symm,
    hvalidBit.symm, hreading.symm⟩

/-- What the host wrote is in the latch (R11, R18, R31). -/
theorem drive_wrote {s t : State} {a : HostAct} (h : s.drive a = .next t) : a.Wrote s t := by
  cases a with
  | setRxByte i b =>
    obtain ⟨-, h⟩ := guarded_next.mp h
    obtain ⟨-, rfl⟩ := hostWrites_next.mp h
    exact ⟨Memory.read_write_same .., fun j hj => Memory.read_write_other _ _ hj⟩
  | setRxLen n =>
    obtain ⟨-, h⟩ := guarded_next.mp h
    obtain ⟨-, rfl⟩ := hostWrites_next.mp h
    exact ⟨rfl, fun _ => rfl⟩
  | exchange m =>
    obtain ⟨hfit, h⟩ := guarded_next.mp h
    obtain ⟨-, rfl⟩ := hostWrites_next.mp h
    exact State.presentRx_holds s hfit
  | setLane k q =>
    obtain ⟨-, rfl⟩ := hostWrites_next.mp h
    obtain ⟨hheld, hbit, hraw⟩ := presentLane_lane s k k (some q)
    rw [if_pos rfl] at hbit hraw
    refine ⟨hraw, hheld, hbit, fun j hj => ?_⟩
    obtain ⟨-, hbit, hraw⟩ := presentLane_lane s k j (some q)
    rw [if_neg hj] at hbit hraw
    exact ⟨hraw, hbit⟩
  | dropLane k =>
    obtain ⟨-, rfl⟩ := hostWrites_next.mp h
    obtain ⟨hheld, hbit, -⟩ := presentLane_lane s k k none
    rw [if_pos rfl] at hbit
    refine ⟨rfl, hheld, hbit, fun j hj => ?_⟩
    obtain ⟨-, hbit, -⟩ := presentLane_lane s k j none
    rwa [if_neg hj] at hbit
  | lanesElec => trivial
  | lanesEnergy => trivial
  | start => trivial
  | wait => trivial
  | read l => trivial
  | reset => trivial
  | transact c => trivial
  | _ =>
    obtain ⟨-, rfl⟩ := hostWrites_next.mp h
    rfl

/-- An operand latch the action does not touch stays (R11). -/
theorem drive_untouched {s t : State} {a : HostAct} {l : OperandLatch} (h : s.drive a = .next t)
    (hl : ¬ a.touches l) : l.Same s t := by
  cases a with
  | setRxByte i b =>
    obtain ⟨-, h⟩ := guarded_next.mp h
    obtain ⟨-, rfl⟩ := hostWrites_next.mp h
    cases l with
    | rx j => exact (Memory.read_write_other _ _ fun hj => hl (congrArg _ hj)).symm
    | _ => rfl
  | setRxLen n =>
    obtain ⟨-, h⟩ := guarded_next.mp h
    obtain ⟨-, rfl⟩ := hostWrites_next.mp h
    cases l with
    | rxLen => exact absurd rfl hl
    | _ => rfl
  | exchange m =>
    obtain ⟨-, h⟩ := guarded_next.mp h
    obtain ⟨-, rfl⟩ := hostWrites_next.mp h
    cases l with
    | rxLen => exact absurd (.inl rfl) hl
    | rx j => exact absurd (.inr ⟨j, rfl⟩) hl
    | _ => rfl
  | setLane k q =>
    obtain ⟨-, rfl⟩ := hostWrites_next.mp h
    obtain ⟨hpresent, hraw⟩ := not_or.mp hl
    exact presentLane_other s k _ hpresent hraw
  | dropLane k =>
    obtain ⟨-, rfl⟩ := hostWrites_next.mp h
    cases l with
    | lanePresent => exact absurd rfl hl
    | _ => rfl
  | lanesElec =>
    obtain ⟨-, -, rfl⟩ := hostSlices_next.mp h
    obtain ⟨hpresent, hraw⟩ := not_or.mp hl
    exact presentSlices_other s _ hpresent fun k hk hlk => hraw ⟨k, hk, hlk⟩
  | lanesEnergy =>
    obtain ⟨-, -, rfl⟩ := hostSlices_next.mp h
    obtain ⟨hpresent, hraw⟩ := not_or.mp hl
    exact presentSlices_other s _ hpresent fun k hk => List.mem_singleton.mp hk ▸ hraw
  | start =>
    obtain ⟨-, rfl⟩ := hostStarts_next.mp h
    cases l <;> rfl
  | wait =>
    cases h
    exact OperandLatch.Same.refl l s
  | read r =>
    obtain ⟨-, -, rfl⟩ := hostReads_next.mp h
    exact OperandLatch.Same.refl l t
  | reset => exact absurd trivial hl
  | transact c => exact absurd trivial hl
  | _ =>
    obtain ⟨-, rfl⟩ := hostWrites_next.mp h
    cases l <;> simp [HostAct.touches, OperandLatch.Same] at hl ⊢

/-- Settles O43: the write is carried out, puts its value there, and is a write of operand latches. -/
theorem hostWritesOperand : Obligations.HostWritesOperand := by
  intro s a rest l hin hw hfit hread hfree
  have hwait : a ≠ .wait := by
    rintro rfl
    cases hw
  obtain ⟨t, ht⟩ := drive_completes (s := { s with inputs := rest }) hw hfit hread hfree
  have hwrite := drive_operandWrite hw ht
  have hresults := hwrite.sameResults
  obtain ⟨hparams, hstart, hdone, hinputs, hcrcAcc, hcursor, -⟩ := hwrite
  have hwrote : a.Wrote s t := drive_wrote (s := { s with inputs := rest }) ht
  have huntouched (l' : OperandLatch) (hl' : ¬ a.touches l') : l'.Same s t :=
    drive_untouched (s := { s with inputs := rest }) ht hl'
  exact ⟨t, (step_act hin hwait).trans ht, hwrote, huntouched, hresults, hcrcAcc, hcursor, hstart, hdone, hparams,
    hinputs⟩

end Sys2Proof.Machine
end

section
/-!
PROOF. The operations as functions of their operands (R40, R42, R165): what an operation writes is fixed by what it
reads, so that it may be run again, after any history of the result latches, and before or after any other operation.
-/

namespace Sys2Proof.Machine

/-! ## States with the same operands -/

theorem SameOperands.refl (s : State) : SameOperands s s := by
  simp [SameOperands]

theorem SameOperands.symm {s t : State} (h : SameOperands s t) : SameOperands t s := by
  obtain ⟨hop, ha, hx, hq, hrx, hlen, hraw, hword, hlanes, hpresent⟩ := h
  exact ⟨hop.symm, ha.symm, hx.symm, hq.symm, fun a => (hrx a).symm, hlen.symm, hraw.symm, hword.symm, hlanes.symm,
    hpresent.symm⟩

theorem SameOperands.trans {s t u : State} (h : SameOperands s t) (h' : SameOperands t u) : SameOperands s u := by
  obtain ⟨hop, ha, hx, hq, hrx, hlen, hraw, hword, hlanes, hpresent⟩ := h
  rw [SameOperands, hop, ha, hx, hq, hlen, hraw, hword, hlanes, hpresent]
  obtain ⟨hop, ha, hx, hq, hrx', hrest⟩ := h'
  exact ⟨hop, ha, hx, hq, fun a => (hrx a).trans (hrx' a), hrest⟩

section
variable {s s' : State} (h : SameOperands s s')
include h

theorem SameOperands.rxByte (i : Nat) : s.rxByte i = s'.rxByte i := by
  obtain ⟨-, -, -, -, hrx, -⟩ := h
  rw [State.rxByte, State.rxByte, hrx]

theorem SameOperands.rxBytes (a n : Nat) : s.rxBytes a n = s'.rxBytes a n := by
  induction n generalizing a with
  | zero => rfl
  | succ n ih => simp only [State.rxBytes, h.rxByte, ih]

theorem SameOperands.rxLe16 (i : Nat) : s.rxLe16 i = s'.rxLe16 i := by
  simp only [State.rxLe16, h.rxByte]

theorem SameOperands.rxLength (hp : s.params = s'.params) : s.rxLength = s'.rxLength := by
  obtain ⟨-, -, -, -, -, hlen, -⟩ := h
  rw [State.rxLength, State.rxLength, hlen, hp]

theorem SameOperands.rxHolds (hp : s.params = s'.params) {m : List Byte} (hm : s.RxHolds m) : s'.RxHolds m := by
  obtain ⟨-, -, -, -, hrx, hlen, -⟩ := h
  simpa only [State.RxHolds, hrx, hlen, hp] using hm

end

/-! ## What an operation writes -/

/-- What an operation writes once its operands are read; PARSE ends on a length, or after it compared CRCs [4], and
then its outcome says whether the Frame is delivered (R14). -/
inductive Effect : Instr → Type where
  | crc16 (m : List Byte) : Effect .crc16
  | build (slave : Byte) (startAddr quantity : Half) : Effect .build
  | parseShort : Effect .parse
  | parseChecked (acc : Half) (covered : Nat) (outcome : Status) (frame : Frame) : Effect .parse
  | f32swap (raw : Quad) : Effect .f32swap
  | isvalid (w : Word) : Effect .isvalid
  | decode (reading : Lanes (Latch Word)) : Effect .decode

/-- The state an effect leaves. -/
def Effect.apply {i : Instr} (e : Effect i) (s : State) : State :=
  match e with
  | .crc16 m => ({ s.ranCrc (Machine.crc16 m) m.length with crcOut := Latch.holding (Machine.crc16 m) } : State).finish
  | .build a x q =>
    ({ s.ranCrc (Machine.crc16 (requestBody a x q)) 6 with tx := Memory.ofBytes (requestBytes a x q) } : State).finish
  | .parseShort => (s.report .frameTooShort none).finish
  | .parseChecked acc k o f => ((s.ranCrc acc k).report o (if o.givesFrame then some f else none)).finish
  | .f32swap r =>
    ({ s with shuf := Latch.holding (shuffle r), wordOut := Latch.holding (swapWord r) } : State).finish
  | .isvalid w => ({ s with valid := Latch.holding (isValidPattern w) } : State).finish
  | .decode reading => ({ s with reading := reading } : State).finish

/-- R40: writing the same again changes nothing. -/
theorem Effect.apply_apply {i : Instr} (e : Effect i) (s : State) : e.apply (e.apply s) = e.apply s := by
  cases e with
  | parseChecked acc k o f => cases o <;> rfl
  | _ => rfl

/-- R42 (3): the results an effect leaves are the same wherever it is applied. -/
theorem Effect.sameResultsOf {i : Instr} (e : Effect i) (s s' : State) : SameResultsOf i (e.apply s) (e.apply s') := by
  cases e with
  | build a x q => exact fun _ => rfl
  | parseShort => exact ⟨rfl, rfl, nofun⟩
  | parseChecked acc k o f =>
    cases hf : o.givesFrame with
    | false => simp [SameResultsOf, Effect.apply, hf]
    | true => simp [SameResultsOf, Effect.apply, hf]
  | f32swap r => exact ⟨rfl, rfl⟩
  | _ => rfl

/-- R42 (3): a state in which an operation completes fixes its effect in every state with the same operands. -/
def HasEffect (i : Instr) (s : State) : Prop :=
  ∃ e : Effect i, ∀ s', SameOperands s s' → s.params = s'.params → exec i s' = .next (e.apply s')

/-- R93 to R95: what the end of PARSE delivers is fixed by the bytes it reads. -/
theorem checkFrame_effect {s t : State} {n k p : Nat} {a f : Byte} {good bad : Status}
    (h : s.checkFrame n k p a f good bad = .next t) :
    ∃ e : Effect .parse, ∀ s', SameOperands s s' → s.params = s'.params →
      s'.checkFrame n k p a f good bad = .next (e.apply s') := by
  obtain ⟨hfit, received, covered, hreceived, hcovered, -⟩ := checkFrame_next.mp h
  exact ⟨.parseChecked (crc16 covered) k (if crc16 covered = received then good else bad)
    ⟨a, f, Memory.ofBytes (covered.drop p), (covered.drop p).length, received⟩,
    fun s' ho hp => checkFrame_next.mpr ⟨hp ▸ hfit, received, covered,
    (ho.rxLe16 _).symm.trans (hp ▸ hreceived), (ho.rxBytes _ _).symm.trans hcovered, rfl⟩⟩

theorem runParse_hasEffect {s t : State} (h : s.runParse = .next t) : HasEffect .parse s := by
  obtain ⟨n, hn, ⟨hshort, -⟩ | ⟨h5, a, f, ha, hf, h⟩⟩ := runParse_next.mp h
  · exact ⟨.parseShort, fun s' ho hp => runParse_next.mpr ⟨n, ho.rxLength hp ▸ hn, .inl ⟨hshort, rfl⟩⟩⟩
  have header {s' u : State} (ho : SameOperands s s') (hp : s.params = s'.params) hu : s'.runParse = .next u :=
    runParse_next.mpr ⟨n, ho.rxLength hp ▸ hn, .inr ⟨h5, a, f, ho.rxByte 0 ▸ ha, ho.rxByte 1 ▸ hf, hu⟩⟩
  obtain ⟨h7, h⟩ | ⟨h7, c, hc, ⟨hcut, -⟩ | ⟨hwhole, h⟩⟩ := h
  · obtain ⟨e, he⟩ := checkFrame_effect h
    exact ⟨e, fun s' ho hp => header ho hp (.inl ⟨h7, hp ▸ he s' ho hp⟩)⟩
  · exact ⟨.parseShort, fun s' ho hp => header ho hp (.inr ⟨h7, c, ho.rxByte 2 ▸ hc, .inl ⟨hcut, rfl⟩⟩)⟩
  · obtain ⟨e, he⟩ := checkFrame_effect h
    exact ⟨e, fun s' ho hp => header ho hp (.inr ⟨h7, c, ho.rxByte 2 ▸ hc, .inr ⟨hwhole, he s' ho hp⟩⟩)⟩

/-- R42 (3): every operation that completes has an effect its operands fix. -/
theorem exec_hasEffect {i : Instr} {s t : State} (hop : isOperation i = true) (h : exec i s = .next t) :
    HasEffect i s := by
  cases i with
  | crc16 =>
    obtain ⟨m, hm, -⟩ := execCrc16_next.mp h
    exact ⟨.crc16 m, fun s' ho hp => execCrc16_next.mpr ⟨m, ho.rxHolds hp hm, rfl⟩⟩
  | build =>
    obtain ⟨a, x, q, ha, hx, hq, -⟩ := runBuild_next.mp h
    refine ⟨.build a x q, fun s' ho _ => runBuild_next.mpr ?_⟩
    obtain ⟨-, hslave, hstartAddr, hquantity, -⟩ := ho
    exact ⟨a, x, q, hslave ▸ ha, hstartAddr ▸ hx, hquantity ▸ hq, rfl⟩
  | parse => exact runParse_hasEffect h
  | f32swap =>
    obtain ⟨r, hr, -⟩ := execF32swap_next.mp h
    refine ⟨.f32swap r, fun s' ho _ => execF32swap_next.mpr ⟨r, ?_, rfl⟩⟩
    obtain ⟨-, -, -, -, -, -, hraw, -⟩ := ho
    exact hraw ▸ hr
  | isvalid =>
    obtain ⟨w, hw, -⟩ := execIsvalid_next.mp h
    refine ⟨.isvalid w, fun s' ho _ => execIsvalid_next.mpr ⟨w, ?_, rfl⟩⟩
    obtain ⟨-, -, -, -, -, -, -, hwordIn, -⟩ := ho
    exact hwordIn ▸ hw
  | decode =>
    obtain ⟨p, hpresent, hlanes, -⟩ := execDecode_next.mp h
    refine ⟨.decode (Lanes.build fun k => Latch.holding (s.laneWord p k)), fun s' ho hp => execDecode_next.mpr ?_⟩
    obtain ⟨-, -, -, -, -, -, -, -, hlaneRaw, hlanePresent⟩ := ho
    have hword : s.laneWord p = s'.laneWord p := by
      funext k
      rw [State.laneWord, State.laneWord, hlaneRaw, hp]
    rw [hlaneRaw] at hlanes
    rw [hlanePresent] at hpresent
    rw [hword]
    exact ⟨p, hpresent, hlanes, rfl⟩
  | reserved6 => cases hop
  | reserved7 => cases hop
  | crcInit => cases hop
  | crcByte b => cases hop
  | crcBit => cases hop
  | req a x q crc => cases hop
  | rsp a f data crc => cases hop
  | exc a f e crc => cases hop

theorem exec_keepsOperands {i : Instr} {s t : State} (hop : isOperation i = true) (h : exec i s = .next t) :
    SameOperands s t := by
  obtain ⟨ho, -⟩ := operationsWriteOnlyResults i s t hop h
  exact ho

/-- Settles O37: the operands stay, so that the same effect is applied again. -/
theorem operationsIdempotent : Obligations.OperationsIdempotent := by
  intro i s t hop h
  obtain ⟨e, he⟩ := exec_hasEffect hop h
  have ht := he s (SameOperands.refl s) rfl
  rw [h] at ht
  cases ht
  rw [he _ (exec_keepsOperands hop h) (exec_params h).symm, e.apply_apply]

/-- Settles O38: one effect, applied in both states. -/
theorem resultsFromOperandsOnly : Obligations.ResultsFromOperandsOnly := by
  intro i s s' t hop ho hp h
  obtain ⟨e, he⟩ := exec_hasEffect hop h
  have ht := he s (SameOperands.refl s) rfl
  rw [h] at ht
  cases ht
  exact ⟨_, he s' ho hp, e.sameResultsOf s s'⟩

/-! ## Two operations -/

theorem exec_sameResultsOf {i : Instr} {s s' t t' : State} (hop : isOperation i = true) (ho : SameOperands s s')
    (hp : s.params = s'.params) (h : exec i s = .next t) (h' : exec i s' = .next t') : SameResultsOf i t t' := by
  obtain ⟨u, hu, hresults⟩ := resultsFromOperandsOnly i s s' t hop ho hp h
  rw [h'] at hu
  cases hu
  exact hresults

/-- R22: result latches, as `latches` reads them, that one operation alone writes, with what its operands fix; it may
also leave them as they were, as PARSE does the Frame latches. -/
structure WrittenBy {α : Type} (owner : Instr) (latches : State → α) : Prop where
  kept {i : Instr} {s t : State} : isOperation i = true → i ≠ owner → exec i s = .next t → latches t = latches s
  determined {s s' t t' : State} : SameOperands s s' → s.params = s'.params → latches s = latches s' →
    exec owner s = .next t → exec owner s' = .next t' → latches t = latches t'

theorem crcOut_writtenBy : WrittenBy .crc16 State.crcOut where
  kept hop hne h := by
    obtain ⟨-, -, -, hcrcOut, -⟩ := operationsWriteOnlyResults _ _ _ hop h
    exact hcrcOut hne
  determined ho hp _ h h' := exec_sameResultsOf rfl ho hp h h'

theorem tx_writtenBy : WrittenBy .build fun s => s.tx.read where
  kept hop hne h := by
    obtain ⟨-, -, -, -, htx, -⟩ := operationsWriteOnlyResults _ _ _ hop h
    exact funext (htx hne)
  determined ho hp _ h h' := funext (exec_sameResultsOf rfl ho hp h h')

/-- R14: the Frame latches hold the Frame PARSE read, or else what they held before. -/
theorem outcome_writtenBy : WrittenBy .parse fun s => (s.status, s.frameValid, s.frame) where
  kept hop hne h := by
    obtain ⟨-, -, -, -, -, -, houtcome, hframe, -⟩ := operationsWriteOnlyResults _ _ _ hop h
    obtain ⟨hstatus, hvalid⟩ := houtcome hne
    obtain ⟨hframe, -⟩ := hframe (.inl hne)
    simp only [hstatus, hvalid, hframe]
  determined {s s' t t'} ho hp hbefore h h' := by
    obtain ⟨hstatus, hvalid, hframe⟩ : SameResultsOf .parse t t' := exec_sameResultsOf rfl ho hp h h'
    obtain ⟨-, -, -, -, -, hold⟩ := runParse_outcome h
    obtain ⟨-, -, -, -, -, hold'⟩ := runParse_outcome h'
    obtain ⟨-, -, hbefore⟩ : s.status = s'.status ∧ s.frameValid = s'.frameValid ∧ s.frame = s'.frame := by
      simpa only [Prod.mk.injEq] using hbefore
    have hsame : t.frame = t'.frame := by
      cases hv : t.frameValid with
      | true => exact hframe hv
      | false => rw [hold hv, hold' (hvalid ▸ hv), hbefore]
    simp only [hstatus, hvalid, hsame]

theorem swap_writtenBy : WrittenBy .f32swap fun s => (s.shuf, s.wordOut) where
  kept hop hne h := by
    obtain ⟨-, -, -, -, -, -, -, -, hswap, -⟩ := operationsWriteOnlyResults _ _ _ hop h
    exact Prod.ext_iff.mpr (hswap hne)
  determined ho hp _ h h' := Prod.ext_iff.mpr (exec_sameResultsOf rfl ho hp h h')

theorem valid_writtenBy : WrittenBy .isvalid State.valid where
  kept hop hne h := by
    obtain ⟨-, -, -, -, -, -, -, -, -, hvalid, -⟩ := operationsWriteOnlyResults _ _ _ hop h
    exact hvalid hne
  determined ho hp _ h h' := exec_sameResultsOf rfl ho hp h h'

theorem reading_writtenBy : WrittenBy .decode State.reading where
  kept hop hne h := by
    obtain ⟨-, -, -, -, -, -, -, -, -, -, hreading, -⟩ := operationsWriteOnlyResults _ _ _ hop h
    exact hreading hne
  determined ho hp _ h h' := exec_sameResultsOf rfl ho hp h h'

/-- R42 (3): two different operations leave what either of them writes the same in either order: no more than one of
them writes it, and that one finds its operands as they were. -/
theorem WrittenBy.commutes {α : Type} {owner : Instr} {latches : State → α} (hw : WrittenBy owner latches)
    {i j : Instr} {s a b c d : State} (hi : isOperation i = true) (hj : isOperation j = true) (hij : i ≠ j)
    (ha : exec i s = .next a) (hb : exec j s = .next b) (hc : exec j a = .next c) (hd : exec i b = .next d) :
    latches c = latches d := by
  by_cases hio : i = owner
  · subst hio
    have hbefore : latches s = latches b := (hw.kept hj hij.symm hb).symm
    calc latches c = latches a := hw.kept hj hij.symm hc
      _ = latches d := hw.determined (exec_keepsOperands hj hb) (exec_params hb).symm hbefore ha hd
  by_cases hjo : j = owner
  · subst hjo
    have hbefore : latches a = latches s := hw.kept hi hij ha
    calc latches c = latches b := hw.determined (exec_keepsOperands hi ha).symm (exec_params ha) hbefore hc hb
      _ = latches d := (hw.kept hi hij hd).symm
  · calc latches c = latches a := hw.kept hj hjo hc
      _ = latches s := hw.kept hi hio ha
      _ = latches b := (hw.kept hj hjo hb).symm
      _ = latches d := (hw.kept hi hio hd).symm

theorem SameResults.refl (s : State) : SameResults s s := by
  simp [SameResults]

/-- Settles O39: each operation finds its operands as they were, and each result latch has one writer. -/
theorem operationsCommute : Obligations.OperationsCommute := by
  intro i j s a b hi hj ha hb
  have hoa := exec_keepsOperands hi ha
  have hob := exec_keepsOperands hj hb
  obtain ⟨c, hc, -⟩ := resultsFromOperandsOnly j s a b hj hoa (exec_params ha).symm hb
  obtain ⟨d, hd, -⟩ := resultsFromOperandsOnly i s b a hi hob (exec_params hb).symm ha
  have hoc := hoa.trans (exec_keepsOperands hj hc)
  have hod := hob.trans (exec_keepsOperands hi hd)
  refine ⟨c, d, hc, hd, hoc.symm.trans hod, ?_⟩
  by_cases hij : i = j
  · subst hij
    rw [ha] at hb
    cases hb
    rw [hc] at hd
    cases hd
    exact SameResults.refl c
  have commutes {α : Type} {owner : Instr} {latches : State → α} (hw : WrittenBy owner latches) :
      latches c = latches d := hw.commutes hi hj hij ha hb hc hd
  obtain ⟨hstatus, hframe⟩ := Prod.ext_iff.mp (commutes outcome_writtenBy)
  obtain ⟨hvalid, hframe⟩ := Prod.ext_iff.mp hframe
  obtain ⟨hshuf, hwordOut⟩ := Prod.ext_iff.mp (commutes swap_writtenBy)
  exact ⟨commutes crcOut_writtenBy, congrFun (commutes tx_writtenBy), hstatus, hvalid, hframe, hshuf, hwordOut,
    commutes valid_writtenBy, commutes reading_writtenBy⟩

end Sys2Proof.Machine
end

section
/-!
PROOF. Bytes on their way into the block: the two byte orders (R35, R54) and the capacity of `RX` (R31, U10).
-/

namespace Sys2Proof.Machine

/-! ## Byte orders -/

theorem hi8_append (b0 b1 : Byte) : hi8 (b0 ++ b1) = b0 := BitVec.extractLsb'_append_eq_left

theorem lo8_append (b0 b1 : Byte) : lo8 (b0 ++ b1) = b1 := BitVec.extractLsb'_append_eq_right

/-- Settles O6: the two orders differ in which byte is written first. -/
theorem byteOrders : Obligations.ByteOrders :=
  ⟨fun v => ⟨le16_lo8_hi8 v, le16_lo8_hi8 v⟩,
    fun b0 b1 => ⟨hi8_append b0 b1, lo8_append b0 b1, lo8_append b1 b0, hi8_append b1 b0⟩⟩

/-! ## The capacity of `RX` -/

@[simp] theorem andThen_refused {α β : Type} (e : Refusal) (f : α → Res β) :
    andThen (.refused e) f = .refused e := rfl

/-- R31: PARSE does not run on a count it cannot read [23]. -/
theorem runParse_over {s : State} {n : Nat} (h : s.rxLen = Latch.holding n) (hn : s.params.rxMax < n) :
    s.runParse = .refused .rxOverCapacity := by
  rw [State.runParse, State.rxLength_over h hn, andThen_refused]

/-- R31: a frame longer than `RX` cannot be presented as an instruction [10], [23]. -/
theorem presentedParse_over {s : State} {bits : BitVec 3} {m : List Byte} (hm : s.params.rxMax < m.length) :
    ((s.presentOp bits).presentRx m).runParse = .refused .rxOverCapacity :=
  runParse_over (presentRx_rxLen ..) hm

/-- Settles O44, clause by clause. -/
theorem rxCapacity : Obligations.RxCapacity := by
  intro s rest
  refine ⟨fun i b hin hi => ?_, fun n hin hn => ?_, fun m hin hm => ?_, fun hheld hn => ?_,
    fun a f data crc hdata => ?_, fun a f e crc hmax => presentedParse_over hmax⟩
  · rw [step_act hin (by simp)]
    exact if_neg (Nat.not_lt.mpr hi)
  · rw [step_act hin (by simp)]
    exact if_neg (Nat.not_le.mpr hn)
  · rw [step_act hin (by simp)]
    exact if_neg (Nat.not_le.mpr hm)
  · have hlen := Latch.eq_holding hheld
    refine ⟨?_, runParse_over hlen hn⟩
    rw [exec, execCrc16, State.rxLength_over hlen hn, andThen_refused]
  · have hlength : (responseBytes a f data crc).length = 5 + data.length := by
      simp [responseBytes, crcBytes]
      omega
    exact presentedParse_over (hlength ▸ hdata)

end Sys2Proof.Machine
end

section
/-!
PROOF. LANES_ELEC and LANES_ENERGY (R61, R116, R188): which lanes are sliced from a payload, and when.
-/

namespace Sys2Proof.Machine

/-- R116: lanes are sliced from the payload of a Frame read with status OK. -/
theorem acceptedPayload_accepted {s : State} (hv : s.frameValid = true) (hs : s.status = Latch.holding .ok) :
    s.acceptedPayload = s.frame.payload := by
  simp [State.acceptedPayload, hv, hs]

/-- R116: no lane is sliced from anything else, a ProtocolException Frame included. -/
theorem acceptedPayload_other {s : State} (h : ¬(s.frameValid = true ∧ s.status = Latch.holding .ok)) :
    s.acceptedPayload = [] := by
  refine if_neg fun hok => h ?_
  simp only [Bool.and_eq_true, beq_iff_eq] at hok
  obtain ⟨⟨hv, hheld⟩, hs⟩ := hok
  exact ⟨hv, hs ▸ Latch.eq_holding hheld⟩

/-- R39, R116: a lane has no slice unless an accepted payload has all its bytes. -/
theorem slice_acceptedPayload_none {s : State} {o : Nat}
    (h : ¬(s.frameValid = true ∧ s.status = Latch.holding .ok ∧ o + 4 ≤ s.frame.payload.length)) :
    slice s.acceptedPayload o = none := by
  refine (slice_cases _ o).2 ?_
  by_cases hacc : s.frameValid = true ∧ s.status = Latch.holding .ok
  · obtain ⟨hv, hs⟩ := hacc
    rw [acceptedPayload_accepted hv hs]
    exact Nat.not_le.mp fun hfit => h ⟨hv, hs, hfit⟩
  · rw [acceptedPayload_other hacc]
    exact Nat.succ_pos _

/-- R61, R116: what presenting slices of the accepted payload leaves of the lanes. -/
theorem presentSlices_sliced (s : State) {ks : List (Fin 8)} (hn : ks.Nodup) (hne : ks ≠ []) :
    SlicedLanes ks s (s.presentSlices s.acceptedPayload ks) := by
  refine ⟨(presentSlices_lane s _ hn 0).1 (.inl hne), fun k => ?_⟩
  obtain ⟨-, hbit, hraw⟩ := presentSlices_lane s s.acceptedPayload hn k
  refine ⟨fun hk hacc => ?_, fun hk hacc => ?_, fun hk => ?_⟩
  · obtain ⟨hv, hs, hfit⟩ := hacc
    rw [if_pos hk, acceptedPayload_accepted hv hs] at hbit hraw
    obtain ⟨q, hq, hbytes⟩ := (slice_cases s.frame.payload (laneOffset k)).1 hfit
    rw [hq] at hbit hraw
    rw [acceptedPayload_accepted hv hs]
    exact ⟨hbit, q, hraw, hbytes⟩
  · rw [if_pos hk, slice_acceptedPayload_none hacc] at hbit hraw
    exact ⟨hbit, hraw⟩
  · rw [if_neg hk] at hbit hraw
    exact ⟨hbit, hraw⟩

/-- R188: before `done` nothing is sliced [16]. -/
theorem hostSlices_early {s : State} {ks : List (Fin 8)} (hfree : s.inHand .lanePresent = false)
    (hd : s.done = false) : s.hostSlices ks = .refused .readBeforeDone := by
  simp [State.hostSlices, hfree, hd]

/-- R116, R188: a step that slices lanes while DECODE is not in hand, after `done` and before it. -/
theorem step_slices {s : State} {rest : List HostAct} {ks : List (Fin 8)} (hn : ks.Nodup) (hne : ks ≠ [])
    (hstep : step s = State.hostSlices { s with inputs := rest } ks) (hfree : s.inHand .lanePresent = false) :
    (s.done = true → ∃ t, step s = .next t ∧ SlicedLanes ks s t) ∧
    (s.done = false → step s = .refused .readBeforeDone) := by
  rw [hstep]
  exact ⟨fun hd => ⟨_, hostSlices_next.mpr ⟨hfree, hd, rfl⟩, presentSlices_sliced { s with inputs := rest } hn hne⟩,
    hostSlices_early (s := { s with inputs := rest }) hfree⟩

/-- Settles O51: lanes 0 to 6. -/
theorem lanesElecSlices : Obligations.LanesElecSlices :=
  fun _ _ hin hfree => step_slices (by decide) (by simp) (step_act hin (by simp)) hfree

/-- Settles O54: lane 7. -/
theorem lanesEnergySlices : Obligations.LanesEnergySlices :=
  fun _ _ hin hfree => step_slices (by decide) (by simp) (step_act hin (by simp)) hfree

end Sys2Proof.Machine
end

section
/-!
PROOF. The codes (R50 to R58): the decoder answers an instruction exactly for the code the encoder writes for it, every
field at every value; and the select values without a meaning.
-/

namespace Sys2Proof.Machine

/-! ## The operation select -/

/-- R58: every select names an operation, and no two name the same. -/
theorem decodeOp_wf_encode (bits : BitVec 3) : (decodeOp bits).wf = true ∧ encode (decodeOp bits) = .op bits := by
  revert bits
  decide

/-! ## Fields and their bytes -/

/-- R54: a CRC field in its two bytes. -/
theorem crcBytes_le16 (lo hi : Byte) : crcBytes (le16 lo hi) = [lo, hi] := by
  rw [crcBytes, le16, lo8_append, hi8_append]

/-- R51: a request's fields in their bytes. -/
theorem requestFrame_be16 (a xh xl qh ql lo hi : Byte) :
    requestFrame a (be16 xh xl) (be16 qh ql) (le16 lo hi) = [a, fcRead, xh, xl, qh, ql, lo, hi] := by
  simp only [requestFrame, requestBody, crcBytes_le16, be16, hi8_append, lo8_append, List.cons_append, List.nil_append]

/-- R35, R54: the two bytes of a big-endian field, high byte first, are the field. -/
theorem be16_hi8_lo8 (v : Half) : be16 (hi8 v) (lo8 v) = v := le16_lo8_hi8 v

/-- R52: a byteCount is one byte, and so counts every payload it can announce. -/
theorem byteCount_toNat {data : List Byte} (h : data.length ≤ 255) :
    (BitVec.ofNat 8 data.length).toNat = data.length := by
  rw [BitVec.toNat_ofNat]
  exact Nat.mod_eq_of_lt (Nat.lt_succ_of_le h)

/-! ## Frames that decode -/

theorem decodeRequest_requestFrame (a : Byte) (x q crc : Half) :
    decodeRequest (requestFrame a x q crc) = .ok (.req a x q crc) := by
  have hfields : decodeRequest (requestFrame a x q crc) =
      .ok (.req a (be16 (hi8 x) (lo8 x)) (be16 (hi8 q) (lo8 q)) (le16 (lo8 crc) (hi8 crc))) := rfl
  rw [hfields, be16_hi8_lo8, be16_hi8_lo8, le16_lo8_hi8]

theorem decodeResponse_exceptionBytes {f : Byte} (h7 : f.getLsbD 7 = true) (a e : Byte) (crc : Half) :
    decodeResponse (exceptionBytes a f e crc) = .ok (.exc a f e crc) := by
  have hfields : decodeResponse (exceptionBytes a f e crc) = .ok (.exc a f e (le16 (lo8 crc) (hi8 crc))) := if_pos h7
  rw [hfields, le16_lo8_hi8]

theorem decodeResponse_responseBytes {f : Byte} {data : List Byte} (h7 : f.getLsbD 7 = false)
    (hlen : data.length ≤ 255) (a : Byte) (crc : Half) :
    decodeResponse (responseBytes a f data crc) = .ok (.rsp a f data crc) := by
  simp only [responseBytes, decodeResponse, h7, byteCount_toNat hlen, List.drop_left, List.take_left, crcBytes,
    le16_lo8_hi8, Bool.false_eq_true, if_false]

/-- R52: a normal response is well formed when its function is no exception's and one byte counts its payload. -/
theorem wf_rsp {a f : Byte} {data : List Byte} {crc : Half} :
    (Instr.rsp a f data crc).wf = true ↔ f.getLsbD 7 = false ∧ data.length ≤ 255 := by
  simp [Instr.wf]

/-- Settles O1: an operation select by its value, a frame by its format. -/
theorem decodeOfEncode : Obligations.DecodeOfEncode := by
  intro i hwf
  cases i with
  | req a x q crc => exact decodeRequest_requestFrame a x q crc
  | rsp a f data crc =>
    obtain ⟨h7, hlen⟩ := wf_rsp.mp hwf
    exact decodeResponse_responseBytes h7 hlen a crc
  | exc a f e crc => exact decodeResponse_exceptionBytes hwf a e crc
  | _ => rfl

/-! ## What decodes is a frame -/

/-- R51: the decoder takes nothing for a request but a request frame. -/
theorem decodeRequest_ok {m : List Byte} {i : Instr} (h : decodeRequest m = .ok i) :
    ∃ a x q crc, i = .req a x q crc ∧ m = requestFrame a x q crc := by
  unfold decodeRequest at h
  split at h
  · rename_i a f xh xl qh ql lo hi
    split_ifs at h with hf
    cases h
    rw [not_not.mp hf]
    exact ⟨_, _, _, _, rfl, (requestFrame_be16 ..).symm⟩
  · cases h

/-- R52, R53, R56: the decoder takes nothing for a response but one of the two formats, bit 7 of the function saying
which, at the length it declares. -/
theorem decodeResponse_ok {m : List Byte} {i : Instr} (h : decodeResponse m = .ok i) :
    (∃ a f e crc, f.getLsbD 7 = true ∧ i = .exc a f e crc ∧ m = exceptionBytes a f e crc) ∨
    ∃ a f data crc, f.getLsbD 7 = false ∧ data.length ≤ 255 ∧ i = .rsp a f data crc ∧
      m = responseBytes a f data crc := by
  unfold decodeResponse at h
  split at h
  · rename_i a f c rest
    split_ifs at h with h7
    · split at h
      · rename_i lo hi
        cases h
        exact .inl ⟨a, f, c, _, h7, rfl, by rw [exceptionBytes, crcBytes_le16]⟩
      · cases h
    · split at h
      · rename_i lo hi hcrc
        cases h
        have hc := c.isLt
        have hlen : (rest.take c.toNat).length = c.toNat := by
          have := congrArg List.length hcrc
          simp only [List.length_drop, List.length_cons, List.length_nil] at this
          exact List.length_take_of_le (by omega)
        refine .inr ⟨a, f, _, _, by simpa using h7, by omega, rfl, ?_⟩
        rw [responseBytes, crcBytes_le16, hlen, BitVec.ofNat_toNat, BitVec.setWidth_eq, ← hcrc, List.take_append_drop]
      · cases h
  · cases h

/-- Settles O2: a select by its value, a frame by the format it was read as. -/
theorem encodeOfDecode : Obligations.EncodeOfDecode := by
  intro c i h
  cases c with
  | op bits =>
    cases h
    exact decodeOp_wf_encode bits
  | request m =>
    obtain ⟨a, x, q, crc, rfl, rfl⟩ := decodeRequest_ok h
    exact ⟨rfl, rfl⟩
  | response m =>
    obtain ⟨a, f, e, crc, h7, rfl, rfl⟩ | ⟨a, f, data, crc, h7, hlen, rfl, rfl⟩ := decodeResponse_ok h
    · exact ⟨h7, rfl⟩
    · exact ⟨wf_rsp.mpr ⟨h7, hlen⟩, rfl⟩
  | crcInit => cases h; exact ⟨rfl, rfl⟩
  | crcByte b => cases h; exact ⟨rfl, rfl⟩
  | crcBit => cases h; exact ⟨rfl, rfl⟩

/-! ## Codes written out -/

/-- Settles O3: each code is what the encoder writes for its instruction. -/
theorem sampleCodesDecode : Obligations.SampleCodesDecode :=
  ⟨decodeOfEncode .f32swap rfl, decodeOfEncode (.req 0x02 0x200E 2 0x3BAE) rfl,
    decodeOfEncode (.rsp 0x01 0x04 [0x12, 0x34] 0x47B4) rfl, decodeOfEncode (.exc 0x01 0x83 0x02 0xF1C0) rfl⟩

/-- Settles O4: each select is what the encoder writes for its operation. -/
theorem opSelectDecodes : Obligations.OpSelectDecodes :=
  ⟨decodeOfEncode .crc16 rfl, decodeOfEncode .build rfl, decodeOfEncode .parse rfl, decodeOfEncode .f32swap rfl,
    decodeOfEncode .isvalid rfl, decodeOfEncode .decode rfl, decodeOfEncode .reserved6 rfl,
    decodeOfEncode .reserved7 rfl⟩

/-- Settles O5: the instructions refuse, and the step runs the one `op` selects. -/
theorem reservedOpsRefused : Obligations.ReservedOpsRefused :=
  fun s => ⟨rfl, rfl, fun hs hin hop => startedOperationRuns s 6#3 hs (.inl hin) hop,
    fun hs hin hop => startedOperationRuns s 7#3 hs (.inl hin) hop⟩

end Sys2Proof.Machine
end

section
/-!
PROOF. Requests and normal responses (R51, R52, R61): a frame issued as an instruction, and the requests of the register
map as the host's actions.
-/

namespace Sys2Proof.Machine

/-! ## Requests -/

/-- R80: BUILD of operands that hold values leaves their request in `TX`. -/
theorem exec_build {s : State} {a : Byte} {x q : Half} (ha : s.slave = Latch.holding a)
    (hx : s.startAddr = Latch.holding x) (hq : s.quantity = Latch.holding q) :
    exec .build s = .next { s with
      tx := Memory.ofBytes (requestBytes a x q), crcAcc := crc16 (requestBody a x q), cursor := 6,
      start := false, done := true } :=
  runBuild_next.mpr ⟨a, x, q, ha, hx, hq, rfl⟩

/-- Settles O19: the fields are presented and BUILD runs; the frame with BUILD's CRC is the request BUILD makes. -/
theorem requestFrameBuilt : Obligations.RequestFrameBuilt := by
  intro s a x q crc
  refine ⟨exec_build (s := (s.presentOp 1#3).presentRequest a x q) rfl rfl rfl, ?_⟩
  rintro rfl
  rfl

/-- A run goes on from the state its first step answers. -/
theorem run_succ {s t : State} {k : Nat} (h : step s = .next t) :
    Sys2Proof.core.run (k + 1) s = Sys2Proof.core.run k t := by
  have hrun (M : Host.Core) (u v : M.State) (hu : M.step u = .next v) : M.run (k + 1) u = M.run k v := by
    rw [Host.Core.run, hu]
  exact hrun Sys2Proof.core s t h

/-- R186: with `start` at 0 the host may write every operand latch, and a step carries the write out. -/
theorem step_writes {s w : State} {act : HostAct} {rest : List HostAct} {l : OperandLatch} (hs : s.start = false)
    (hin : s.inputs = act :: rest) (hact : act ≠ .wait)
    (hwrite : State.drive { s with inputs := rest } act = State.hostWrites { s with inputs := rest } l w) :
    step s = .next w := by
  have hfree : State.inHand { s with inputs := rest } l = false := by rw [State.inHand, hs, Bool.false_and]
  rw [step_act hin hact, hwrite]
  exact hostWrites_next.mpr ⟨hfree, rfl⟩

/-- R23: with `start` at 0 the host may assert it, and a step does [3]. -/
theorem step_start {s : State} {rest : List HostAct} (hs : s.start = false) (hin : s.inputs = .start :: rest) :
    step s = .next { s with start := true, done := false, inputs := rest } := by
  obtain ⟨hstart, -⟩ := handshake s rest
  exact hstart hin hs

/-- R23: selecting an operation, starting it and waiting for it takes four steps: it runs in the third, and the wait is
over in the fourth [5]. -/
theorem run_runOp {s t : State} {bits : BitVec 3} {rest : List HostAct} (hs : s.start = false)
    (hin : s.inputs = runOp bits ++ rest)
    (hexec : exec (decodeOp bits) { s.presentOp bits with start := true, done := false, inputs := .wait :: rest } =
      .next t)
    (hstart : t.start = false) (hwait : t.inputs = .wait :: rest) :
    Sys2Proof.core.run 4 s = .next { t with inputs := rest } := by
  refine Eq.trans (run_succ (step_writes hs hin (by simp) rfl)) ?_
  refine Eq.trans (run_succ (step_start hs rfl)) ?_
  refine Eq.trans (run_succ ((startedOperationRuns _ bits rfl (.inr ⟨rest, rfl⟩) rfl).trans hexec)) ?_
  exact run_succ (step_wait hstart hwait)

/-- R61: the host's seven actions for a request leave it in `TX`. -/
theorem run_buildRequest {s : State} {a : Byte} {x q : Half} {rest : List HostAct} (hs : s.start = false)
    (hin : s.inputs = buildRequest a x q ++ rest) :
    Sys2Proof.core.run 7 s = .next { (s.presentOp 1#3).presentRequest a x q with
      tx := Memory.ofBytes (requestBytes a x q), crcAcc := crc16 (requestBody a x q), cursor := 6,
      start := false, done := true, inputs := rest } := by
  refine Eq.trans (run_succ (step_writes hs hin (by simp) rfl)) ?_
  refine Eq.trans (run_succ (step_writes (act := .setStartAddr x) hs rfl (by simp) rfl)) ?_
  refine Eq.trans (run_succ (step_writes (act := .setQuantity q) hs rfl (by simp) rfl)) ?_
  exact Eq.trans (run_runOp hs rfl (exec_build rfl rfl rfl) rfl rfl) rfl

/-- Settles O49: both are requests, with the fields of the register map. -/
theorem readRequestsBuilt : Obligations.ReadRequestsBuilt :=
  fun _ _ _ hs => ⟨fun hin => ⟨_, run_buildRequest hs hin, rfl, rfl, rfl⟩,
    fun hin => ⟨_, run_buildRequest hs hin, rfl, rfl, rfl⟩⟩

/-! ## Normal responses -/

/-- R94: PARSE of a normal response as long as it declares delivers the outcome of its covered bytes and its last two,
under every parameter. -/
theorem runParse_normal_delivers {s : State} {a f c lo hi : Byte} {payload : List Byte}
    (h : s.RxHolds (a :: f :: c :: (payload ++ [lo, hi]))) (h7 : f.getLsbD 7 = false)
    (hlen : payload.length = c.toNat) :
    ∃ t, s.runParse = .next t ∧
      Delivered (frameOutcome s.params.excBadCrc a f (a :: f :: c :: payload) (le16 lo hi)) s t := by
  have hd : declaredLength (a :: f :: c :: (payload ++ [lo, hi])) = payload.length + 5 := by
    rw [declaredLength_normal rfl rfl rfl h7, hlen, Nat.add_comm]
  have hm : (a :: f :: c :: (payload ++ [lo, hi])).length = payload.length + 5 := by simp
  have hplace : crcPosition s.params.trailingPolicy (payload.length + 5) (payload.length + 3) = payload.length + 3 :=
    crcPosition_exact _ (payload.length + 5)
  have hcovered : (a :: f :: c :: (payload ++ [lo, hi])).take (payload.length + 3) = a :: f :: c :: payload := by
    simp
  have hdel := runParse_delivers (lo := lo) (hi := hi) h rfl rfl rfl (hd.trans hm.symm).le fun _ => hm.trans hd.symm
  rw [hd, hm, Nat.add_sub_assoc (by decide), hplace, hcovered] at hdel
  exact hdel (by simp) (by simp)

/-- R94: the outcome of a normal response whose CRC is right. -/
theorem frameOutcome_normal_good {f : Byte} (h7 : f.getLsbD 7 = false) {excBadCrc : ExcBadCrc} {a c : Byte}
    {payload : List Byte} {received : Half} (hcrc : crc16 (a :: f :: c :: payload) = received) :
    frameOutcome excBadCrc a f (a :: f :: c :: payload) received = (.ok, some ⟨a, f, payload, received⟩) := by
  rw [frameOutcome_good hcrc, goodStatus, payloadAt, h7]
  rfl

/-- R94: the outcome of a normal response whose CRC is wrong. -/
theorem frameOutcome_normal_bad {f : Byte} (h7 : f.getLsbD 7 = false) {excBadCrc : ExcBadCrc} {a c : Byte}
    {payload : List Byte} {received : Half} (hcrc : crc16 (a :: f :: c :: payload) ≠ received) :
    frameOutcome excBadCrc a f (a :: f :: c :: payload) received = (.crcMismatch, none) := by
  rw [frameOutcome_bad hcrc, badStatus, h7]
  rfl

/-- Settles O27: the presented frame is parsed, and PARSE leaves what it does not write. -/
theorem normalResponseParsed : Obligations.NormalResponseParsed := by
  intro s a f data crc h7 hlen hmax u
  have hfit : (responseBytes a f data crc).length ≤ s.params.rxMax := by
    have hbytes : (responseBytes a f data crc).length = data.length + 5 := by simp [responseBytes, crcBytes]
    omega
  have hrx : u.RxHolds (responseBytes a f data crc) := State.presentRx_holds _ hfit
  obtain ⟨t, ht, hdel⟩ := runParse_normal_delivers hrx h7 (byteCount_toNat hlen).symm
  have hout := hdel.of_frame (s := s) rfl
  rw [le16_lo8_hi8] at hout
  refine ⟨t, ht, fun hcrc => ?_, fun hcrc => ?_, runParse_frame ht⟩
  · rwa [frameOutcome_normal_good (payload := data) h7 hcrc] at hout
  · rwa [frameOutcome_normal_bad (payload := data) h7 hcrc] at hout

end Sys2Proof.Machine
end

section
/-!
PROOF. CHECK (R61, R76 (c)): a message followed by its CRC, low byte first, has the residue zero, and no other two bytes
give it.
-/

namespace Sys2Proof.Machine

/-- R73: while the bits shifted out are 0, bit steps are a shift. -/
theorem crcBits_eq_shift {n : Nat} {acc : Half} (h : ∀ i, i < n → acc.getLsbD i = false) :
    crcBits n acc = acc >>> n := by
  induction n generalizing acc with
  | zero => exact (BitVec.ushiftRight_zero acc).symm
  | succ n ih =>
    have hstep : crcBitStep acc = acc >>> 1 := by rw [crcBitStep, h 0 n.succ_pos, if_neg Bool.false_ne_true]
    have hshifted (i : Nat) (hi : i < n) : (acc >>> 1).getLsbD i = false := by
      rw [BitVec.getLsbD_ushiftRight]
      exact h (1 + i) (by omega)
    rw [crcBits_succ, hstep, ih hshifted, ← BitVec.shiftRight_add, Nat.add_comm]

/-- R72: a byte zero-extended. -/
theorem setWidth_byte (b : Byte) : b.setWidth 16 = 0#8 ++ b := BitVec.setWidth_eq_append (by decide)

/-- R72: the byte that is the accumulator's low one cancels it, and the eight bit steps move the high one down. -/
theorem crcByteStep_le16 (lo hi : Byte) : crcByteStep (le16 lo hi) lo = hi.setWidth 16 := by
  have hcancel : le16 lo hi ^^^ lo.setWidth 16 = hi ++ 0#8 := by
    rw [le16, setWidth_byte, BitVec.xor_append, BitVec.xor_zero, BitVec.xor_self]
  have hlow (i : Nat) (hi8 : i < 8) : (hi ++ 0#8).getLsbD i = false := by
    rw [BitVec.getLsbD_append, if_pos hi8, BitVec.getLsbD_zero]
  rw [crcByteStep, hcancel, crcBits_eq_shift hlow, BitVec.ushiftRight_eq_extractLsb'_of_lt (by decide),
    BitVec.extractLsb'_append_eq_left, setWidth_byte]
  rfl

/-- R76: two bytes bring the accumulator to zero exactly when they are its own, low byte first. -/
theorem crcFrom_eq_zero_iff (acc : Half) (lo hi : Byte) : crcFrom acc [lo, hi] = 0#16 ↔ acc = le16 lo hi := by
  have hown : crcFrom (le16 lo hi) [lo, hi] = 0#16 := by
    rw [crcFrom_cons, crcFrom_cons, crcFrom_nil, crcByteStep_le16, crcByteStep, BitVec.xor_self]
    decide
  exact hown ▸ (crcFrom_injective [lo, hi]).eq_iff

/-- R61: CHECK of a message and two bytes compares the message's CRC with them. -/
theorem checkCrc_append (p : List Byte) (lo hi : Byte) : checkCrc (p ++ [lo, hi]) = (crc16 p == le16 lo hi) := by
  have hlen : (p ++ [lo, hi]).length - 2 = p.length := by simp
  rw [checkCrc, hlen, List.drop_left, List.take_left]

/-- Settles O52: the last two bytes bring the CRC of the others to zero exactly when they are it. -/
theorem checkMeansResidue : Obligations.CheckMeansResidue := by
  intro bytes h2
  obtain ⟨p, lo, hi, rfl⟩ : ∃ p lo hi, bytes = p ++ [lo, hi] := by
    have htwo : (bytes.drop (bytes.length - 2)).length = 2 := by
      rw [List.length_drop, Nat.sub_sub_self h2]
    obtain ⟨lo, hi, hlast⟩ := List.length_eq_two.mp htwo
    exact ⟨bytes.take (bytes.length - 2), lo, hi, by rw [← hlast, List.take_append_drop]⟩
  rw [checkCrc_append, beq_iff_eq, crc16, crc16, crcFrom_append, crcFrom_eq_zero_iff]

end Sys2Proof.Machine
end

section
/-!
PROOF. CRC16 and its micro-steps (R70 to R76): what each instruction makes of the state, why one byte at a time gives what
CRC16 gives, the table-driven form of a byte step, and the residue.
-/

namespace Sys2Proof.Machine

/-! ## The CRC as the rules write it -/

/-- R73: a zero enters at bit 15. -/
theorem shiftRight_one_eq_append (v : Half) : v >>> 1 = 0#1 ++ v.extractLsb' 1 15 :=
  BitVec.ushiftRight_eq_extractLsb'_of_lt (by decide)

/-- R76 (b): a zero byte enters above the high byte. -/
theorem shiftRight_eight_eq_append (v : Half) : v >>> 8 = 0#8 ++ hi8 v :=
  BitVec.ushiftRight_eq_extractLsb'_of_lt (by decide)

theorem crcBits_eq_iterate (n : Nat) (acc : Half) : crcBits n acc = crcBitStep^[n] acc := by
  induction n generalizing acc with
  | zero => rfl
  | succ n ih => exact ih (crcBitStep acc)

theorem crcFrom_eq_foldl (acc : Half) (m : List Byte) : crcFrom acc m = m.foldl crcByteStep acc := by
  induction m generalizing acc with
  | nil => rfl
  | cons b m ih => exact ih (crcByteStep acc b)

/-- R70: the checksum is the rule's loop over the bytes, with eight bit steps for each. -/
theorem crc16_eq_loop (m : List Byte) :
    crc16 m = m.foldl (fun acc b => crcBitStep^[8] (acc ^^^ b.setWidth 16)) crcInitValue := by
  have hbyte : crcByteStep = fun acc b => crcBitStep^[8] (acc ^^^ b.setWidth 16) :=
    funext₂ fun _ _ => crcBits_eq_iterate 8 _
  rw [crc16, crcFrom_eq_foldl, hbyte]

/-! ## The instructions -/

/-- R70: CRC16 of a message in `RX`; the working latches are [4], the handshake's end is [3]. -/
theorem exec_crc16 {s : State} {m : List Byte} (h : s.RxHolds m) :
    exec .crc16 s = .next { s with
      crcOut := Latch.holding (crc16 m), crcAcc := crc16 m, cursor := m.length, start := false, done := true } :=
  execCrc16_next.mpr ⟨m, h, rfl⟩

theorem exec_crcInit (s : State) : exec .crcInit s = .next { s with crcAcc := crcInitValue, cursor := 0 } := rfl

theorem exec_crcByte (b : Byte) (s : State) :
    exec (.crcByte b) s = .next { s with crcAcc := crcByteStep s.crcAcc b, cursor := s.cursor + 1 } := rfl

theorem exec_crcBit (s : State) : exec .crcBit s = .next { s with crcAcc := crcBitStep s.crcAcc } := rfl

theorem execAll_cons {i : Instr} {s t : State} (h : exec i s = .next t) (is : List Instr) :
    execAll (i :: is) s = execAll is t := by
  rw [execAll, h]

theorem execAll_crcBits (n : Nat) (s : State) :
    execAll (List.replicate n .crcBit) s = .next { s with crcAcc := crcBits n s.crcAcc } := by
  induction n generalizing s with
  | zero => rfl
  | succ n ih => rw [List.replicate_succ, execAll_cons (exec_crcBit s), ih, crcBits_succ]

theorem execAll_crcBytes (m : List Byte) (s : State) : execAll (m.map .crcByte) s =
    .next { s with crcAcc := crcFrom s.crcAcc m, cursor := s.cursor + m.length } := by
  induction m generalizing s with
  | nil => rfl
  | cons b m ih =>
    rw [List.map_cons, execAll_cons (exec_crcByte b s), ih, crcFrom_cons, List.length_cons, Nat.add_assoc,
      Nat.add_comm 1]

/-- Settles O10: RX holds the message, and its checksum is the rule's loop. -/
theorem crc16Result : Obligations.Crc16Result := by
  refine ⟨rfl, fun s m h => ?_⟩
  rw [exec_crc16 h, crc16_eq_loop]
  rfl

/-- Settles O11: the instruction writes these two latches. -/
theorem crcInitResult : Obligations.CrcInitResult := exec_crcInit

/-- Settles O13: the model's shift is the rule's. -/
theorem crcBitResult : Obligations.CrcBitResult := by
  intro s
  rw [exec_crcBit, crcBitStep, shiftRight_one_eq_append, crcPoly]

/-- R72: the byte goes into the low half, and the high half stays. -/
theorem xor_byte_eq_append (v : Half) (b : Byte) : v ^^^ b.setWidth 16 = hi8 v ++ (lo8 v ^^^ b) := by
  conv_lhs => rw [← le16_lo8_hi8 v, le16, setWidth_byte, BitVec.xor_append, BitVec.xor_zero]

/-- Settles O12: the byte step is the eight bit steps, run after the XOR. -/
theorem crcByteResult : Obligations.CrcByteResult := by
  intro s b
  refine ⟨{ s with crcAcc := crcByteStep s.crcAcc b }, ?low, ?high, execAll_crcBits 8 _, rfl, exec_crcByte b s⟩
  case low => rw [xor_byte_eq_append, lo8_append]
  case high => rw [xor_byte_eq_append, hi8_append]

/-- Settles O14: the two parts are one message, and CRC.INIT starts it as CRC16 does. -/
theorem serialCrcAgrees : Obligations.SerialCrcAgrees := by
  intro s p q h
  have hserial : execAll (.crcInit :: (p.map .crcByte ++ q.map .crcByte)) s =
      .next { s with crcAcc := crc16 (p ++ q), cursor := (p ++ q).length } := by
    rw [← List.map_append, execAll_cons (exec_crcInit s), execAll_crcBytes, Nat.zero_add, crc16]
  exact ⟨_, _, exec_crc16 h, hserial, rfl, rfl⟩

/-! ## The table-driven form and the residue -/

/-- R76 (b): a high byte over a zero low byte is only moved down. -/
theorem crcBits_eight_highByte (h : Byte) : crcBits 8 (h ++ 0#8) = 0#8 ++ h := by
  have hstep := crcByteStep_le16 0#8 h
  rwa [crcByteStep, le16, BitVec.setWidth_zero, BitVec.xor_zero, setWidth_byte] at hstep

/-- R76 (b): the high byte moves down, and the low byte with the new one in it is looked up in the table. -/
theorem crcByteStep_eq_table (acc : Half) (b : Byte) :
    crcByteStep acc b = (acc >>> 8) ^^^ crcBits 8 ((lo8 acc ^^^ b).setWidth 16) := by
  have hsplit : acc ^^^ b.setWidth 16 = (hi8 acc ++ 0#8) ^^^ (lo8 acc ^^^ b).setWidth 16 := by
    rw [xor_byte_eq_append, setWidth_byte, BitVec.xor_append, BitVec.xor_zero, BitVec.zero_xor]
  rw [crcByteStep, hsplit, crcBits_xor, crcBits_eight_highByte, shiftRight_eight_eq_append]

/-- Settles O15: linearity splits the step at the byte boundary. -/
theorem crcTableForm : Obligations.CrcTableForm :=
  ⟨crcByteStep_eq_table, crcBits_xor 8, crcBits_eight_highByte, by decide, by decide, by decide⟩

theorem eq_le16_iff (v : Half) (lo hi : Byte) : v = le16 lo hi ↔ lo = lo8 v ∧ hi = hi8 v := by
  constructor
  · rintro rfl
    exact ⟨(lo8_append hi lo).symm, (hi8_append hi lo).symm⟩
  · rintro ⟨rfl, rfl⟩
    exact (le16_lo8_hi8 v).symm

/-- Settles O16: two bytes bring the CRC to zero exactly when they are it, low byte first. -/
theorem crcResidue : Obligations.CrcResidue := by
  refine ⟨rfl, fun m x y => ?_⟩
  rw [crc16, crcFrom_append, crcFrom_eq_zero_iff, eq_le16_iff, ← crc16]

end Sys2Proof.Machine
end

section
/-!
PROOF. BUILD (R80 to R83): the eight bytes of a request with the values of the operands, the residue of a built request,
and the lengths of its answers.
-/

namespace Sys2Proof.Machine

/-- Settles O17: the operands hold values, and the request's bytes are written out from their fields. -/
theorem buildResult : Obligations.BuildResult :=
  ⟨rfl, fun _ _ _ _ ha hx hq => exec_build ha hx hq⟩

/-- R76, R82: a message followed by its own CRC has the residue zero. -/
theorem crc16_append_crcBytes (m : List Byte) : crc16 (m ++ crcBytes (crc16 m)) = 0#16 := by
  obtain ⟨-, hresidue⟩ := crcResidue
  exact (hresidue m _ _).mpr ⟨rfl, rfl⟩

/-- Settles O18: `TX` holds the request's six bytes and their CRC, low byte first. -/
theorem buildCrcRoundTrip : Obligations.BuildCrcRoundTrip := by
  intro s ha hx hq
  have hbuild := exec_build (Latch.eq_holding ha) (Latch.eq_holding hx) (Latch.eq_holding hq)
  set body := requestBody s.slave.value s.startAddr.value s.quantity.value
  have hreads := Memory.read_ofBytes (requestBytes s.slave.value s.startAddr.value s.quantity.value)
  exact ⟨_, _, _, _, _, _, _, lo8 (crc16 body), hi8 (crc16 body), hbuild,
    ⟨hreads 0, hreads 1, hreads 2, hreads 3, hreads 4, hreads 5, hreads 6, hreads 7⟩,
    (le16_lo8_hi8 (crc16 body)).symm, crc16_append_crcBytes body⟩

/-- R52: a normal response is five bytes longer than its payload. -/
theorem responseBytes_length (a f : Byte) (data : List Byte) (crc : Half) :
    (responseBytes a f data crc).length = 5 + data.length := by
  simp only [responseBytes, crcBytes, List.length_cons, List.length_append, List.length_nil]
  omega

/-- Settles O53: two data bytes for each register, beside the five bytes of a response. -/
theorem answerLengths : Obligations.AnswerLengths := by
  refine ⟨fun quantity crc a f data hdata => ?_, rfl, rfl, rfl, fun _ _ _ _ => rfl⟩
  rw [responseBytes_length, hdata, expectedByteCount, expectedLength]

end Sys2Proof.Machine
end

section
/-!
PROOF. What a valid Frame says about its input (R91, R97 to R101): a frame with its own CRC parses back, the outcome
table, the two CRCs of an accepted frame, and the detection of one changed byte.
-/

namespace Sys2Proof.Machine

/-- Settles O24: the CRC's two bytes are read back as the CRC of the bytes before them, whatever the parameters. -/
theorem parseBuildInverse : Obligations.ParseBuildInverse := by
  intro s a f
  constructor
  · intro payload h7 hlen crc h
    have hcrc : crc16 (a :: f :: BitVec.ofNat 8 payload.length :: payload) = crc := rfl
    have hdel := runParse_normal_delivers (payload := payload) h h7 (byteCount_toNat hlen).symm
    rw [le16_lo8_hi8] at hdel
    rwa [frameOutcome_normal_good h7 hcrc] at hdel
  · intro e h7 crc h
    have hplace : crcPosition s.params.trailingPolicy 5 3 = 3 := crcPosition_exact _ 5
    have hdel := runParse_exception_delivers h (le_refl 5) rfl rfl rfl h7 (fun _ => rfl)
      (congrArg (fun p => [a, f, e, lo8 crc, hi8 crc][p]?) hplace)
      (congrArg (fun p => [a, f, e, lo8 crc, hi8 crc][p + 1]?) hplace)
    rw [le16_lo8_hi8] at hdel
    rwa [frameOutcome_exception_good h7 rfl] at hdel

/-! ## The outcome table for every input -/

/-- R91: of fewer than five bytes PARSE reads none. -/
theorem runParse_short {s : State} {n : Nat} (hn : s.rxLen = Latch.holding n) (hle : n ≤ s.params.rxMax) (h5 : n < 5) :
    s.runParse = .next (s.report .frameTooShort none).finish :=
  runParse_next.mpr ⟨n, State.rxLength_eq_next.mpr ⟨hn, hle⟩, .inl ⟨h5, rfl⟩⟩

/-- Settles O21: the length alone decides. -/
theorem parseShortInput : Obligations.ParseShortInput :=
  fun _ _ hn hle h5 => runParse_short hn hle h5

/-- R97: the rows of an input shorter than the frame it declares. -/
theorem expectedParse_tooShort {m : List Byte} (h : m.length < declaredLength m) :
    expectedParse m = (.frameTooShort, none) := by
  unfold expectedParse
  split
  · rename_i a f c x y tail
    cases h7 : f.getLsbD 7 with
    | true =>
      rw [declaredLength_exception rfl rfl rfl h7] at h
      exact absurd h (Nat.not_lt.mpr (Nat.le_add_left 5 tail.length))
    | false =>
      rw [declaredLength_normal rfl rfl rfl h7] at h
      have hdrop := List.length_drop (i := 3 + c.toNat) (l := a :: f :: c :: x :: y :: tail)
      rw [if_neg Bool.false_ne_true]
      split
      · rename_i lo hi rest hcrc
        rw [hcrc, List.length_cons, List.length_cons] at hdrop
        omega
      · rfl
  · rfl

/-- R95, R97: the table looks at no byte beyond the frame. -/
theorem expectedParse_take {m : List Byte} (h : declaredLength m ≤ m.length) :
    expectedParse (m.take (declaredLength m)) = expectedParse m := by
  obtain ⟨a, f, c, x, y, tail, rfl⟩ : ∃ a f c x y tail, m = a :: f :: c :: x :: y :: tail := by
    match m, (five_le_declaredLength m).trans h with
    | a :: f :: c :: x :: y :: tail, _ => exact ⟨a, f, c, x, y, tail, rfl⟩
  cases h7 : f.getLsbD 7 with
  | true =>
    rw [declaredLength_exception rfl rfl rfl h7]
    simp only [List.take_succ_cons, List.take_zero, expectedParse, h7, if_true]
  | false =>
    rw [declaredLength_normal rfl rfl rfl h7] at h ⊢
    set m := a :: f :: c :: x :: y :: tail with hm
    have hframe : m.take (5 + c.toNat) = a :: f :: c :: x :: y :: tail.take c.toNat := by
      rw [Nat.add_comm, hm]
      rfl
    have hcovered : (m.take (5 + c.toNat)).take (3 + c.toNat) = m.take (3 + c.toNat) := by
      rw [List.take_take, Nat.min_eq_left (by omega)]
    obtain ⟨lo, hi, rest, hrest⟩ : ∃ lo hi rest, m.drop (3 + c.toNat) = lo :: hi :: rest := by
      have htwo : 2 ≤ (m.drop (3 + c.toNat)).length := by
        rw [List.length_drop]
        omega
      match m.drop (3 + c.toNat), htwo with
      | lo :: hi :: rest, _ => exact ⟨lo, hi, rest, rfl⟩
    have hlast : (m.take (5 + c.toNat)).drop (3 + c.toNat) = [lo, hi] := by
      rw [List.drop_take, hrest, Nat.add_sub_add_right]
      rfl
    rw [hframe] at hcovered hlast ⊢
    rw [hm] at hcovered hrest ⊢
    simp only [expectedParse, h7, hlast, hrest, hcovered]

/-- Settles O20: below five bytes by the length, and from there on by the length the input declares. -/
theorem parseOutcomes : Obligations.ParseOutcomes := by
  refine ⟨⟨rfl, rfl, rfl, rfl⟩, fun s m h hp hexc => ?_⟩
  obtain h5 | h5 := Nat.lt_or_ge m.length 5
  · obtain ⟨hlen, hle, -⟩ := h
    rw [expectedParse_tooShort (h5.trans_le (five_le_declaredLength m))]
    exact ⟨_, runParse_short hlen hle h5, report_delivered rfl (.frameTooShort, none)⟩
  obtain ⟨hcut, hexact, hlonger, -⟩ := parseLongerInput s m h h5 hexc
  obtain hL | hL | hL := Nat.lt_trichotomy m.length (declaredLength m)
  · rw [expectedParse_tooShort hL]
    exact hcut hL
  · exact hexact hL.symm
  · rw [← expectedParse_take hL.le]
    exact hlonger hL hp

/-! ## The two CRCs of an accepted frame -/

/-- R93, R94: with the default of `EXC_BAD_CRC` a wrong CRC is CRCMismatch in both branches. -/
theorem frameOutcome_default_bad {a f : Byte} {covered : List Byte} {received : Half} (h : crc16 covered ≠ received) :
    frameOutcome .crcMismatch a f covered received = (.crcMismatch, none) := by
  have hbad : badStatus .crcMismatch f = .crcMismatch := by
    unfold badStatus
    split_ifs <;> rfl
  rw [frameOutcome_bad h, hbad]
  rfl

/-- R14, R95: PARSE answers a valid Frame only when the whole frame is there, and under the policy `refuse` nothing
after it. -/
theorem runParse_valid_whole {s t : State} {m : List Byte} (h : s.RxHolds m) (ht : s.runParse = .next t)
    (hv : t.frameValid = true) :
    declaredLength m ≤ m.length ∧ (s.params.trailingPolicy = .refuse → m.length = declaredLength m) := by
  have hnotShort : s.runParse ≠ .next (s.report .frameTooShort none).finish := by
    intro hshort
    rw [ht] at hshort
    cases hshort
    cases hv
  have h5 : 5 ≤ m.length := by
    by_contra h5
    obtain ⟨hlen, hle, -⟩ := h
    exact hnotShort (runParse_short hlen hle (Nat.lt_of_not_le h5))
  obtain ⟨a, f, c, ha, hf, hc⟩ := exists_header h5
  have hL : declaredLength m ≤ m.length := by
    by_contra hL
    exact hnotShort (runParse_cut h ha hf hc h5 (Nat.lt_of_not_le hL))
  refine ⟨hL, fun hp => ?_⟩
  by_contra hlong
  have hrefused := runParse_trailing h ha hf hc (Nat.lt_of_le_of_ne hL (Ne.symm hlong)) hp
  rw [ht] at hrefused
  cases hrefused

/-- R98: with the default of `EXC_BAD_CRC` an accepted frame passed the comparison: the CRC of the covered bytes is the
one at the place the policy names, and so is the CRC in the Frame. -/
theorem runParse_accepted {s t : State} {m : List Byte} (h : s.RxHolds m) (hexc : s.params.excBadCrc = .crcMismatch)
    (ht : s.runParse = .next t) (hv : t.frameValid = true) : ∃ lo hi,
      m[crcPosition s.params.trailingPolicy m.length (declaredLength m - 2)]? = some lo ∧
      m[crcPosition s.params.trailingPolicy m.length (declaredLength m - 2) + 1]? = some hi ∧
      crc16 (m.take (declaredLength m - 2)) = le16 lo hi ∧ t.frame.crc = le16 lo hi := by
  obtain ⟨hL, hp⟩ := runParse_valid_whole h ht hv
  have hd := five_le_declaredLength m
  obtain ⟨a, f, c, ha, hf, hc⟩ := exists_header (hd.trans hL)
  have hk : declaredLength m - 2 + 2 ≤ m.length := by omega
  have hplace := crcPosition_le (policy := s.params.trailingPolicy) hk
  obtain ⟨lo, hi, hlo, hhi⟩ : ∃ lo hi,
      m[crcPosition s.params.trailingPolicy m.length (declaredLength m - 2)]? = some lo ∧
      m[crcPosition s.params.trailingPolicy m.length (declaredLength m - 2) + 1]? = some hi :=
    ⟨_, _, List.getElem?_eq_getElem (by omega), List.getElem?_eq_getElem (by omega)⟩
  obtain ⟨u, hu, hdel⟩ := runParse_delivers h ha hf hc hL hp hlo hhi
  rw [ht] at hu
  cases hu
  rw [hexc] at hdel
  refine ⟨lo, hi, hlo, hhi, ?_⟩
  by_cases hcrc : crc16 (m.take (declaredLength m - 2)) = le16 lo hi
  · rw [frameOutcome_good hcrc] at hdel
    obtain ⟨-, -, hframe, -⟩ := hdel
    obtain ⟨-, -, -, -, hreceived⟩ := hframe _ rfl
    exact ⟨hcrc, hreceived⟩
  · rw [frameOutcome_default_bad hcrc] at hdel
    obtain ⟨-, hvalid, -⟩ := hdel
    rw [hv] at hvalid
    cases hvalid

/-- Settles O26: an accepted frame passed the comparison with the CRC the policy reads. -/
theorem frameCrcIsLocal : Obligations.FrameCrcIsLocal := by
  intro s t m h hexc ht hv
  obtain ⟨lo, hi, hlo, hhi, hlocal, hreceived⟩ := runParse_accepted h hexc ht hv
  rw [crcPosition_eq] at hlo hhi
  exact ⟨hreceived.trans hlocal.symm, lo, hi, ⟨hlo, hhi⟩, hreceived⟩

/-! ## One changed byte -/

/-- R76, R101: changing one byte changes the checksum. -/
theorem crc16_set_ne {m : List Byte} {i : Nat} {b c : Byte} (hi : m[i]? = some c) (hbc : b ≠ c) :
    crc16 (m.set i b) ≠ crc16 m := by
  obtain ⟨hlt, hget⟩ := List.getElem?_eq_some_iff.mp hi
  have hm : m = m.take i ++ c :: m.drop (i + 1) := by
    rw [← hget, List.getElem_cons_drop, List.take_append_drop]
  rw [List.set_eq_take_append_cons_drop, if_pos hlt]
  conv_rhs => rw [hm]
  exact crc16_ne_of_byte_ne _ _ hbc

/-- R56: a change outside the function and, in a normal response, outside byteCount leaves the declared length. -/
theorem declaredLength_set {m : List Byte} {i : Nat} {f : Byte} (b : Byte) (h5 : 5 ≤ m.length) (hf : m[1]? = some f)
    (h1 : i ≠ 1) (h2 : f.getLsbD 7 = false → i ≠ 2) : declaredLength (m.set i b) = declaredLength m := by
  obtain ⟨a, -, c, ha, -, hc⟩ := exists_header h5
  obtain ⟨a', -, c', ha', -, hc'⟩ := exists_header (m := m.set i b) (by rwa [List.length_set])
  have hf' : (m.set i b)[1]? = some f := by rwa [List.getElem?_set_ne h1]
  cases h7 : f.getLsbD 7 with
  | true => rw [declaredLength_exception ha hf hc h7, declaredLength_exception ha' hf' hc' h7]
  | false =>
    rw [List.getElem?_set_ne (h2 h7), hc] at hc'
    cases hc'
    rw [declaredLength_normal ha hf hc h7, declaredLength_normal ha' hf' (List.getElem?_set_ne (h2 h7) ▸ hc) h7]

/-- R93, R94: PARSE of a message exactly as long as its frame, with a wrong CRC in its last two bytes and the default of
`EXC_BAD_CRC`. -/
theorem runParse_exact_mismatch {s : State} {m : List Byte} {lo hi : Byte} (h : s.RxHolds m)
    (hexc : s.params.excBadCrc = .crcMismatch) (hL : declaredLength m = m.length) (hlo : m[m.length - 2]? = some lo)
    (hhi : m[m.length - 2 + 1]? = some hi) (hcrc : crc16 (m.take (m.length - 2)) ≠ le16 lo hi) :
    ∃ t, s.runParse = .next t ∧ Delivered (.crcMismatch, none) s t := by
  obtain ⟨a, f, c, ha, hf, hc⟩ := exists_header (hL ▸ five_le_declaredLength m)
  have hdel := runParse_delivers (lo := lo) (hi := hi) h ha hf hc hL.le fun _ => hL.symm
  rw [hL, crcPosition_exact, hexc, frameOutcome_default_bad hcrc] at hdel
  exact hdel hlo hhi

/-- Settles O25: the changed byte is covered by the CRC, and neither the frame's length nor its last two
bytes change. -/
theorem tamperDetected : Obligations.TamperDetected := by
  intro s s' t m i f b c h h' hparams hexc ht hv hL hf hc hbc hplace
  obtain ⟨lo, hi, hlo, hhi, hcrc, -⟩ := runParse_accepted h hexc ht hv
  rw [hL, crcPosition_exact] at hlo hhi
  rw [hL] at hcrc
  have h5 : 5 ≤ m.length := hL ▸ five_le_declaredLength m
  have hcovered : i < m.length - 2 := by omega
  have h1 : i ≠ 1 := by omega
  have h2 : f.getLsbD 7 = false → i ≠ 2 := by
    rintro h7 rfl
    obtain h0 | ⟨h7', -⟩ | ⟨-, h3, -⟩ := hplace
    · cases h0
    · exact Bool.false_ne_true (h7.symm.trans h7')
    · omega
  have hL' : declaredLength (m.set i b) = (m.set i b).length := by
    rw [declaredLength_set b h5 hf h1 h2, hL, List.length_set]
  have hcrc' : crc16 ((m.set i b).take ((m.set i b).length - 2)) ≠ le16 lo hi := by
    rw [← hcrc, List.length_set, List.take_set]
    exact crc16_set_ne (by rwa [List.getElem?_take_of_lt hcovered]) hbc
  have hlo' : (m.set i b)[(m.set i b).length - 2]? = some lo := by
    rwa [List.length_set, List.getElem?_set_ne hcovered.ne]
  have hhi' : (m.set i b)[(m.set i b).length - 2 + 1]? = some hi := by
    rwa [List.length_set, List.getElem?_set_ne (hcovered.trans_le (Nat.le_succ _)).ne]
  obtain ⟨t', ht', hstatus, hvalid, -⟩ := runParse_exact_mismatch h' (hparams ▸ hexc) hL' hlo' hhi' hcrc'
  exact ⟨t', ht', hstatus, hvalid⟩

end Sys2Proof.Machine
end

section
/-!
PROOF. F32SWAP, ISVALID and DECODE (R110 to R118): the pattern of four bytes and the way back from it, which patterns are
NaN or infinity, and the lanes.
-/

namespace Sys2Proof.Machine

/-! ## F32SWAP -/

/-- R110: the shuffle and the little-endian reading cancel. -/
theorem swapWord_eq_append (q : Quad) : swapWord q = q.b0 ++ q.b1 ++ q.b2 ++ q.b3 := rfl

/-- R110: F32SWAP of four bytes that `raw` holds; the handshake's end is [3]. -/
theorem exec_f32swap {s : State} {q : Quad} (h : s.raw = Latch.holding q) :
    exec .f32swap s = .next { s with
      shuf := Latch.holding (shuffle q), wordOut := Latch.holding (swapWord q), start := false, done := true } :=
  execF32swap_next.mpr ⟨q, h, rfl⟩

/-- Settles O30: `raw` holds the four bytes, and their pattern is the bytes in wire order. -/
theorem f32SwapResult : Obligations.F32SwapResult := by
  refine ⟨rfl, fun s b0 b1 b2 b3 h => ?_⟩
  rw [exec_f32swap h, swapWord_eq_append, shuffle]

/-- The four bytes of a pattern, the most significant first: what F32SWAP takes to it (R112). -/
def wordQuad (w : Word) : Quad :=
  ⟨w.extractLsb' 24 8, w.extractLsb' 16 8, w.extractLsb' 8 8, w.extractLsb' 0 8⟩

/-- A byte at the low end moves the bytes above it up by eight places. -/
theorem extractLsb'_append_byte {v start : Nat} (x : BitVec v) (b : Byte) :
    (x ++ b).extractLsb' (start + 8) 8 = x.extractLsb' start 8 :=
  BitVec.extractLsb'_append_eq_of_le (Nat.le_add_left 8 start)

theorem wordQuad_swapWord (q : Quad) : wordQuad (swapWord q) = q := by
  rw [swapWord_eq_append, wordQuad, Quad.mk.injEq]
  refine ⟨?first, ?second, ?third, ?fourth⟩
  case first =>
    exact (extractLsb'_append_byte _ _).trans <|
      (extractLsb'_append_byte _ _).trans BitVec.extractLsb'_append_eq_left
  case second =>
    exact (extractLsb'_append_byte _ _).trans <|
      (extractLsb'_append_byte _ _).trans BitVec.extractLsb'_append_eq_right
  case third => exact (extractLsb'_append_byte _ _).trans BitVec.extractLsb'_append_eq_right
  case fourth => exact BitVec.extractLsb'_append_eq_right

theorem swapWord_wordQuad (w : Word) : swapWord (wordQuad w) = w := by
  simp only [swapWord_eq_append, wordQuad]
  rw [BitVec.extractLsb'_append_extractLsb'_eq_extractLsb' (by rfl),
    BitVec.extractLsb'_append_extractLsb'_eq_extractLsb' (by rfl),
    BitVec.extractLsb'_append_extractLsb'_eq_extractLsb' (by rfl)]
  exact BitVec.extractLsb'_eq_self

/-- Settles O31: taking a pattern apart into its bytes is the inverse. -/
theorem swapIsBijection : Obligations.SwapIsBijection :=
  Function.bijective_iff_has_inverse.mpr ⟨wordQuad, wordQuad_swapWord, swapWord_wordQuad⟩

/-! ## ISVALID -/

/-- R113: the exponent is a number below 256, so comparing the field's bits compares that number. -/
theorem isValidPattern_eq_decide (w : Word) : isValidPattern w = decide (w.toNat / 2 ^ 23 % 256 ≠ 255) := by
  have hfield : (w.extractLsb' 23 8).toNat = w.toNat / 2 ^ 23 % 256 := by
    rw [BitVec.extractLsb'_toNat, Nat.shiftRight_eq_div_pow]
  have hones : w.extractLsb' 23 8 = 0xFF#8 ↔ w.toNat / 2 ^ 23 % 256 = 255 := by
    rw [← BitVec.toNat_inj, hfield]
    rfl
  rw [isValidPattern, Bool.eq_iff_iff, bne_iff_ne, decide_eq_true_iff]
  exact not_congr hones

/-- R114: ISVALID of a pattern that `word_in` holds; the handshake's end is [3]. -/
theorem exec_isvalid {s : State} {w : Word} (h : s.wordIn = Latch.holding w) :
    exec .isvalid s = .next { s with
      valid := Latch.holding (isValidPattern w), start := false, done := true } :=
  execIsvalid_next.mpr ⟨w, h, rfl⟩

/-- Settles O32: NaN and infinity together are the patterns with the exponent 255, whatever the fraction. -/
theorem isValidResult : Obligations.IsValidResult := by
  refine ⟨rfl, ?_⟩
  intro s w h e m
  have hsplit : e ≠ 255 ↔ ¬(e = 255 ∧ m ≠ 0) ∧ ¬(e = 255 ∧ m = 0) := by tauto
  rw [exec_isvalid h, isValidPattern_eq_decide, decide_eq_decide.mpr hsplit]

/-! ## DECODE -/

/-- R115, R117: DECODE when every present lane holds its bytes; the handshake's end is [3]. -/
theorem exec_decode {s : State} {p : BitVec 8} (h : s.lanePresent = Latch.holding p)
    (hlanes : ∀ k : Fin 8, p.getLsbD k.val = true → (s.laneRaw.get k).held = true) :
    exec .decode s = .next { s with
      reading := Lanes.build fun k => Latch.holding (s.laneWord p k), start := false, done := true } :=
  execDecode_next.mpr ⟨p, h, hlanes, rfl⟩

/-- Settles O33: each lane is F32SWAP of its bytes, or absent. -/
theorem decodeResult : Obligations.DecodeResult := by
  refine ⟨rfl, fun s p h hlanes => ⟨_, exec_decode h hlanes, rfl, fun k => ?_⟩⟩
  rw [Lanes.get_build, State.laneWord, swapWord_eq_append]

end Sys2Proof.Machine
end

section
/-!
PROOF. Completion and hazards (R180, R181, R186, R195): every instruction completes once its operands are there, a reset
abandons whatever is in hand, and what is in hand cannot be written.
-/

namespace Sys2Proof.Machine

/-! ## Completion -/

/-- R91, R94, R95: PARSE of a message in `RX` completes under every policy that gives a longer input a result: the message
is too short, cut short of the frame it declares, or holds a whole frame. -/
theorem runParse_completes {s : State} {m : List Byte} (h : s.RxHolds m) (hp : s.params.trailingPolicy ≠ .refuse) :
    ∃ t, s.runParse = .next t := by
  obtain h5 | h5 := Nat.lt_or_ge m.length 5
  · obtain ⟨hlen, hle, -⟩ := h
    exact ⟨_, runParse_short hlen hle h5⟩
  obtain ⟨a, f, c, ha, hf, hc⟩ := exists_header h5
  obtain hL | hL := Nat.lt_or_ge m.length (declaredLength m)
  · exact ⟨_, runParse_cut h ha hf hc h5 hL⟩
  · have hd := five_le_declaredLength m
    have hplace := crcPosition_le (policy := s.params.trailingPolicy)
      (show declaredLength m - 2 + 2 ≤ m.length by omega)
    have hlo := List.getElem?_eq_getElem (Nat.lt_of_add_right_lt (Nat.lt_of_succ_le hplace))
    have hhi := List.getElem?_eq_getElem (Nat.lt_of_succ_le hplace)
    obtain ⟨t, ht, -⟩ := runParse_delivers h ha hf hc hL (fun hr => absurd hr hp) hlo hhi
    exact ⟨t, ht⟩

/-- R21, R195: an instruction whose operands are there completes. -/
theorem exec_completes {i : Instr} {s : State} (h : Ready i s) : ∃ t, exec i s = .next t := by
  cases i with
  | crc16 =>
    obtain ⟨m, hm⟩ := h
    exact ⟨_, exec_crc16 hm⟩
  | build =>
    obtain ⟨hslave, hstartAddr, hquantity⟩ := h
    exact ⟨_, exec_build (Latch.eq_holding hslave) (Latch.eq_holding hstartAddr) (Latch.eq_holding hquantity)⟩
  | parse =>
    obtain ⟨hp, m, hm⟩ := h
    exact runParse_completes hm hp
  | f32swap => exact ⟨_, exec_f32swap (Latch.eq_holding h)⟩
  | isvalid => exact ⟨_, exec_isvalid (Latch.eq_holding h)⟩
  | decode =>
    obtain ⟨hpresent, hlanes⟩ := h
    exact ⟨_, exec_decode (Latch.eq_holding hpresent) hlanes⟩
  | reserved6 => exact h.elim
  | reserved7 => exact h.elim
  | crcInit => exact ⟨_, exec_crcInit s⟩
  | crcByte b => exact ⟨_, exec_crcByte b s⟩
  | crcBit => exact ⟨_, exec_crcBit s⟩
  | req a x q crc =>
    obtain ⟨hbuilt, -⟩ := requestFrameBuilt s a x q crc
    exact ⟨_, hbuilt⟩
  | rsp a f data crc =>
    obtain ⟨h7, hlen, hmax⟩ := h
    obtain ⟨t, ht, -⟩ := normalResponseParsed s a f data crc h7 hlen hmax
    exact ⟨t, ht⟩
  | exc a f e crc =>
    obtain ⟨h7, hmax⟩ := h
    obtain ⟨t, ht, -⟩ := exceptionResponseParsed s a f e crc h7 hmax
    exact ⟨t, ht⟩

/-- R23, R195: every effect of an operation ends with the handshake [3]. -/
theorem Effect.apply_handshake {i : Instr} (e : Effect i) (s : State) :
    (e.apply s).done = true ∧ (e.apply s).start = false := by
  cases e <;> exact ⟨rfl, rfl⟩

/-- R23, R195: an operation that completes asserts `done` and takes the request [3]. -/
theorem exec_handshake {i : Instr} {s t : State} (hop : isOperation i = true) (h : exec i s = .next t) :
    t.done = true ∧ t.start = false := by
  obtain ⟨e, he⟩ := exec_hasEffect hop h
  obtain rfl : t = e.apply s := Host.Outcome.next.inj (h.symm.trans (he s (SameOperands.refl s) rfl))
  exact e.apply_handshake s

/-- Settles O36: the instruction completes, and an operation that completes ends the handshake. -/
theorem everyOperationEnds : Obligations.EveryOperationEnds := by
  intro i s h
  obtain ⟨t, ht⟩ := exec_completes h
  exact ⟨t, ht, fun hop => exec_handshake hop ht⟩

/-! ## What is in hand -/

theorem inHand_eq_true {s : State} {l : OperandLatch} :
    s.inHand l = true ↔ s.start = true ∧ (l = .op ∨ s.op.held = true ∧ l.usedBy s.op.value = true) := by
  simp [State.inHand]

/-- R186: a write of a latch in hand is refused. -/
theorem hostWrites_inHand {s w : State} {l : OperandLatch} (h : s.inHand l = true) :
    s.hostWrites l w = .refused .operandsNotStable := if_pos h

/-- R186: LANES_ELEC and LANES_ENERGY are refused while DECODE's lanes are in hand. -/
theorem hostSlices_inHand {s : State} {ks : List (Fin 8)} (h : s.inHand .lanePresent = true) :
    s.hostSlices ks = .refused .operandsNotStable := if_pos h

/-- R31, R186: an action that fits and writes a latch in hand is refused. -/
theorem drive_inHand {s : State} {a : HostAct} {l : OperandLatch} (hw : a.writes = some l)
    (hfit : a.fits s.params.rxMax) (h : s.inHand l = true) : s.drive a = .refused .operandsNotStable := by
  cases a with
  | setRxByte i b => cases hw; exact (if_pos hfit).trans (hostWrites_inHand h)
  | setRxLen n => cases hw; exact (if_pos hfit).trans (hostWrites_inHand h)
  | exchange m => cases hw; exact (if_pos hfit).trans (hostWrites_inHand h)
  | lanesElec => cases hw; exact hostSlices_inHand h
  | lanesEnergy => cases hw; exact hostSlices_inHand h
  | start => cases hw
  | wait => cases hw
  | read r => cases hw
  | reset => cases hw
  | transact c => cases hw
  | _ => cases hw; exact hostWrites_inHand h

/-- Settles O42: the latch is in hand, so that the action is refused. -/
theorem operandsMustBeStable : Obligations.OperandsMustBeStable := by
  intro s a rest l hin hw hfit hs hl
  have hwait : a ≠ .wait := by
    rintro rfl
    cases hw
  have hhand : State.inHand { s with inputs := rest } l = true := inHand_eq_true.mpr ⟨hs, hl⟩
  exact (step_act hin hwait).trans (drive_inHand hw hfit hhand)

/-! ## Reset -/

/-- R21, R180: a reset leaves no latch with a value, whatever the parameters and the host's further actions [26]. -/
theorem resetBlock_noValues (s : State) : s.resetBlock.NoValues := by
  obtain ⟨hreset, -⟩ := resetHasNoValues
  exact hreset

/-- Settles O41: the step resets the block, an operation in progress or not. -/
theorem resetAbandons : Obligations.ResetAbandons :=
  fun s rest hin => ⟨State.resetBlock { s with inputs := rest }, step_act hin (by simp), resetBlock_noValues _,
    rfl, rfl, rfl⟩

end Sys2Proof.Machine
end
